-- ==== Sys2Proof/Word.lean ====
section
/-! DEFINITION. The machine's one data type: an unsigned byte, and a byte used as a memory index. -/

namespace Sys2Proof

/-- R11: an unsigned 8-bit value. Registers, memory cells, opcodes and operands are all of this type. Its `+` and
`-` are the arithmetic modulo 256 of R13. -/
abbrev Byte := BitVec 8

/-- R11: a `Byte` used as a memory index. -/
abbrev Addr := Byte

end Sys2Proof
end

