-- ==== Sys2Proof/Config.lean ====
section
/-! DEFINITION. What is fixed for this machine (R9). The spec's one open value that a run can depend on, `mem_init`
(R10, D3), is no constant here: it is the argument of `Sys2Proof.Machine.State.powerOn`. The spec leaves no result,
flag or register of an instruction undefined (93_implementation_defined.md), so the model has no free value. -/

namespace Sys2Proof

/-- R9: the memory has 256 cells, addresses 0 to 255. -/
def Config.memSize : Nat := 256

/-- R38, R191: the `pc` after `reset()`, which is the entry point. -/
def Config.entryPoint : Addr := 0x00#8

end Sys2Proof
end

