-- ==== Sys2Proof/Machine/State.lean ====
section
/-! DEFINITION. The machine's state as plain data, the reasons a step could stop, and the state after reset. -/

namespace Sys2Proof.Machine

/-- The 256 cells of R40, as a list of (address, byte) pairs in one canonical form: see `Memory.wf` and `Memory.read` in
Machine/Ops.lean. -/
abbrev Memory := List Host.Cell

/-- R20: the architectural state is exactly `(pc, acc, flags, mem)`. -/
structure State where
  /-- R25: the address of the next byte to fetch. -/
  pc : Byte
  /-- R23: the accumulator, the sole general-purpose register. -/
  acc : Byte
  /-- R28: bit 0 is the zero flag, bits 7:1 are storage with no meaning. -/
  flags : Byte
  /-- R40: the one address space, shared by code and data. -/
  mem : Memory
  deriving DecidableEq, Repr

/-- R85, R170: the engine has no fault of any kind, so this type has no constructor. -/
inductive Fault : Type
  deriving DecidableEq, Repr

/-- R85: no state is refused, so no step of this model answers a refusal. -/
inductive Refusal where
  /-- An instruction that has no meaning in the model yet: raised by a rejected arm of `exec`, of which there is none
  left. Safe: the machine stops where the hardware goes on. -/
  | notModelled (mnemonic : String)
  deriving DecidableEq, Repr

/-- R39: at power-on the registers hold their reset values. The memory's contents are the spec's open parameter
`mem_init` (R10, D3), taken as an argument. -/
def State.powerOn (memInit : Memory) : State :=
  { pc := Config.entryPoint, acc := 0x00#8, flags := 0x00#8, mem := memInit }

/-- R38, R39: the registers after reset, with a memory that lists nothing. DESIGN CHOICE, unsafe (notes/assumptions/1.md):
the spec leaves the memory's contents at power-on open, and a memory that lists nothing reads as 0 everywhere. -/
def State.reset : State :=
  State.powerOn []

end Sys2Proof.Machine
end

