-- ==== Sys2Proof/Machine/Ops.lean ====
section
/-! DEFINITION. The named operations over memory and registers, and the fetch unit. The engine takes no exception and
returns from none (R170, R174, R175), so there is no such operation. -/

namespace Sys2Proof.Machine

/-! Memory (R15, R40 to R45) -/

/-- What a cell that the list does not name reads as. DESIGN CHOICE (notes/assumptions/1.md): with 0 here, every
contents of the 256 cells is exactly one canonical list, so a statement about every memory is a statement about every
`mem_init`. -/
def Memory.unlisted : Byte := 0x00#8

/-- R15, `MemRead(a, 1)`: total, and with no effect on the state. -/
def Memory.read : Memory → Addr → Byte
  | [], _ => Memory.unlisted
  | c :: m, a => if c.1 = a.toNat then c.2 else Memory.read m a

/-- The memory without an entry for `a`. -/
def Memory.erase (m : Memory) (a : Addr) : Memory :=
  m.filter (fun c => c.1 != a.toNat)

/-- Puts a cell before the first one with a greater address. -/
def Memory.insertCell (c : Host.Cell) : Memory → Memory
  | [] => [c]
  | d :: m => if c.1 < d.1 then c :: d :: m else d :: Memory.insertCell c m

/-- R15, `MemWrite(a, 1, v)`: sets cell `a` to `v` and no other cell (R45). It keeps the canonical form: writing what an
unlisted cell reads as leaves no entry. -/
def Memory.write (m : Memory) (a : Addr) (v : Byte) : Memory :=
  if v = Memory.unlisted then m.erase a else Memory.insertCell (a.toNat, v) (m.erase a)

/-- The canonical form: addresses strictly rising and below 256 (R40), and no entry equal to what an unlisted cell
reads as. -/
def Memory.wf (m : Memory) : Bool :=
  decide (m.Pairwise (fun c d => c.1 < d.1))
    && m.all (fun c => decide (c.1 < Config.memSize) && c.2 != Memory.unlisted)

/-! Registers (R14): one operation for each register's write, and memory through the state -/

/-- `pc <- v`. -/
def State.setPc (s : State) (v : Byte) : State := { s with pc := v }

/-- `acc <- v`. -/
def State.setAcc (s : State) (v : Byte) : State := { s with acc := v }

/-- `flags <- v`, all eight bits. -/
def State.setFlags (s : State) (v : Byte) : State := { s with flags := v }

/-- `MemRead(a, 1)` in a state. -/
def State.memRead (s : State) (a : Addr) : Byte := s.mem.read a

/-- `MemWrite(a, 1, v)` in a state. -/
def State.memWrite (s : State) (a : Addr) (v : Byte) : State := { s with mem := s.mem.write a v }

/-! The fetch unit (R80 to R82) -/

/-- R80: the `pc` after a fetch at `pc`, in the two branches of the spec. -/
def nextPc (pc : Byte) : Byte :=
  if pc = 0xFF#8 then 0x00#8 else pc + 1#8

/-- R80, `fetch()`: the byte at the `pc` before the advance, and the state with the `pc` advanced. -/
def fetch (s : State) : Byte × State :=
  (s.memRead s.pc, s.setPc (nextPc s.pc))

/-! The host's accesses (R34, R35) and reset (R190) -/

/-- R190, `reset()`: the three registers are 0 and the memory is not touched. -/
def resetRegisters (s : State) : State :=
  ((s.setPc Config.entryPoint).setAcc 0x00#8).setFlags 0x00#8

/-- R34, `writeMemory(addr, value)`. -/
def hostWrite (a : Addr) (v : Byte) (s : State) : State := s.memWrite a v

/-- R34, `readMemory(addr)`. -/
def hostRead (a : Addr) (s : State) : Byte := s.memRead a

/-- Writes bytes at consecutive addresses in fetch order, from `a` on, 255 being followed by 0 (R61). -/
def writeBytes (a : Addr) : List Byte → State → State
  | [], s => s
  | b :: bs, s => writeBytes (nextPc a) bs (s.memWrite a b)

end Sys2Proof.Machine
end

