-- ==== Sys2Proof/Machine/Flags.lean ====
section
/-! DEFINITION. The zero flag, bit 0 of `flags` (R28). The engine has no other flag (R31). -/

namespace Sys2Proof.Machine

/-- R12: `Z` is `flags[0]`. -/
def zFlagOf (flags : Byte) : Bool := flags.getLsbD 0

/-- R14: the bit write `flags[0] <- z`, which keeps bits 7:1. -/
def writeZ (flags : Byte) (z : Bool) : Byte := flags.extractLsb' 1 7 ++ BitVec.ofBool z

/-- R149: the branch condition reads `flags[0]` only. -/
def State.zFlag (s : State) : Bool := zFlagOf s.flags

/-- R29: a full overwrite of bit 0. Bits 7:1 keep their value (R30). -/
def State.setZ (s : State) (z : Bool) : State := s.setFlags (writeZ s.flags z)

/-- R122: what the arithmetic instructions leave in Z, from the result. -/
def zeroOf (r : Byte) : Bool := r == 0x00#8

end Sys2Proof.Machine
end

