-- ==== Sys2Proof/Machine/Operands.lean ====
section
/-! DEFINITION. The two operand kinds of R63. No operand is extended, scaled or offset (R64). -/

namespace Sys2Proof.Machine

/-- R63, `imm8`: the operand byte itself is the value, or the target of a direct jump. -/
def immOperand (operand : Byte) : Byte := operand

/-- R63, `addr8`: the value, or the target of an indirect jump, is the byte stored at the operand. One level deep
only. -/
def addrOperand (s : State) (operand : Addr) : Byte := s.memRead operand

end Sys2Proof.Machine
end

