-- ==== Sys2Proof/Machine/Alu.lean ====
section
/-! DEFINITION. The ALU's three operations (R120) and the meanings of `cmp`, `adi`, `add`, `sui` and `sub`
(42_alu.md). -/

namespace Sys2Proof.Machine

/-- R121: addition modulo 256. -/
def aluAdd (a b : Byte) : Byte := a + b

/-- R121: subtraction modulo 256, `a` the minuend. -/
def aluSub (a b : Byte) : Byte := a - b

/-- R120: equality. -/
def aluEqual (a b : Byte) : Bool := a == b

/-- R122, R123: the result goes to `acc`, and Z says whether it is zero. -/
def writeResult (s : State) (r : Byte) : State := (s.setAcc r).setZ (zeroOf r)

/-- R124. `acc` is not written. -/
def execCmp (imm : Byte) (s : State) : Host.Outcome State Fault Refusal :=
  .next (s.setZ (aluEqual (immOperand imm) s.acc))

/-- R125. -/
def execAdi (imm : Byte) (s : State) : Host.Outcome State Fault Refusal :=
  .next (writeResult s (aluAdd s.acc (immOperand imm)))

/-- R126. -/
def execAdd (addr : Addr) (s : State) : Host.Outcome State Fault Refusal :=
  .next (writeResult s (aluAdd s.acc (addrOperand s addr)))

/-- R127, R128, C4: `sui` adds, despite its name. -/
def execSui (imm : Byte) (s : State) : Host.Outcome State Fault Refusal :=
  .next (writeResult s (aluAdd s.acc (immOperand imm)))

/-- R129: `acc` is the minuend. -/
def execSub (addr : Addr) (s : State) : Host.Outcome State Fault Refusal :=
  .next (writeResult s (aluSub s.acc (addrOperand s addr)))

end Sys2Proof.Machine
end

