-- ==== Sys2Proof/Machine/Control.lean ====
section
/-! DEFINITION. The meanings of `ldp` and the six jumps (43_control.md). The operand of a jump is fetched before its
meaning runs, taken or not (R147), so a jump that is not taken leaves the `pc` as it finds it: past the operand. -/

namespace Sys2Proof.Machine

/-- R86: a taken jump overwrites the `pc` with its target. -/
def jumpTo (s : State) (target : Addr) : State := s.setPc target

/-- R147: a conditional jump. Not taken, it changes nothing more: the operand has been consumed, and the target, read
without a side effect (R45), is not used (D7). -/
def jumpIf (taken : Bool) (s : State) (target : Addr) : State := if taken then jumpTo s target else s

/-- R140: the `pc` has advanced past the opcode. -/
def execLdp (s : State) : Host.Outcome State Fault Refusal :=
  .next (s.setAcc s.pc)

/-- R141. -/
def execJmi (imm : Addr) (s : State) : Host.Outcome State Fault Refusal :=
  .next (jumpTo s (immOperand imm))

/-- R142. -/
def execJmp (addr : Addr) (s : State) : Host.Outcome State Fault Refusal :=
  .next (jumpTo s (addrOperand s addr))

/-- R143: taken if Z = 1. -/
def execJiz (imm : Addr) (s : State) : Host.Outcome State Fault Refusal :=
  .next (jumpIf s.zFlag s (immOperand imm))

/-- R144: taken if Z = 1. -/
def execJmz (addr : Addr) (s : State) : Host.Outcome State Fault Refusal :=
  .next (jumpIf s.zFlag s (addrOperand s addr))

/-- R145: taken if Z = 0. -/
def execJin (imm : Addr) (s : State) : Host.Outcome State Fault Refusal :=
  .next (jumpIf (!s.zFlag) s (immOperand imm))

/-- R146: taken if Z = 0. -/
def execJmn (addr : Addr) (s : State) : Host.Outcome State Fault Refusal :=
  .next (jumpIf (!s.zFlag) s (addrOperand s addr))

end Sys2Proof.Machine
end

