-- ==== Sys2Proof/Machine/LoadStore.lean ====
section
/-! DEFINITION. The meanings of `ldi`, `lda`, `sta`, `ldf` and `stf` (41_load_store.md). A meaning runs on the state
after the fetches of its instruction: `pc` is already past the opcode and the operand (R83). -/

namespace Sys2Proof.Machine

/-- R100. No flag is written (R32). -/
def execLdi (imm : Byte) (s : State) : Host.Outcome State Fault Refusal :=
  .next (s.setAcc (immOperand imm))

/-- R101. No flag is written (R32). -/
def execLda (addr : Addr) (s : State) : Host.Outcome State Fault Refusal :=
  .next (s.setAcc (addrOperand s addr))

/-- R102. Any cell may be written, the instruction's own included (R54). -/
def execSta (addr : Addr) (s : State) : Host.Outcome State Fault Refusal :=
  .next (s.memWrite addr s.acc)

/-- R103: all eight bits. -/
def execLdf (s : State) : Host.Outcome State Fault Refusal :=
  .next (s.setAcc s.flags)

/-- R104: all eight bits. Z becomes `acc[0]`, not a zero test. -/
def execStf (s : State) : Host.Outcome State Fault Refusal :=
  .next (s.setFlags s.acc)

end Sys2Proof.Machine
end

