-- ==== Sys2Proof/Machine/Unknown.lean ====
section
/-! DEFINITION. The meaning of the table's default row (R84). -/

namespace Sys2Proof.Machine

/-- R84: nothing beyond the opcode fetch, which has already moved the `pc`. -/
def execUnknown (_opcode : Byte) (s : State) : Host.Outcome State Fault Refusal :=
  .next s

end Sys2Proof.Machine
end

