-- ==== Sys2Proof/Syntax.lean ====
section
/-! DEFINITION. The instructions: one constructor for each row of spec/opcode_table.json. -/

namespace Sys2Proof

/-- The rows of the opcode map (R66) and its default row (R68). `imm` is an operand byte used directly as data or as
a jump target, `addr` an operand byte used as the address of the cell that holds the value (R63). -/
inductive Instr where
  /-- 0x01, R100: `acc <- imm`. -/
  | ldi (imm : Byte)
  /-- 0x02, R101: `acc <- mem[addr]`. -/
  | lda (addr : Addr)
  /-- 0x03, R102: `mem[addr] <- acc`. -/
  | sta (addr : Addr)
  /-- 0x04, R103: `acc <- flags`. -/
  | ldf
  /-- 0x05, R104: `flags <- acc`. -/
  | stf
  /-- 0x10, R124: `Z <- (imm == acc)`. -/
  | cmp (imm : Byte)
  /-- 0x11, R125: `acc <- acc + imm`, Z from the result. -/
  | adi (imm : Byte)
  /-- 0x12, R126: `acc <- acc + mem[addr]`, Z from the result. -/
  | add (addr : Addr)
  /-- 0x13, R127 and R128: `acc <- acc + imm`, Z from the result. It adds, despite its name. -/
  | sui (imm : Byte)
  /-- 0x14, R129: `acc <- acc - mem[addr]`, Z from the result. -/
  | sub (addr : Addr)
  /-- 0x20, R140: `acc <- pc`, the `pc` after the opcode fetch. -/
  | ldp
  /-- 0x21, R141: `pc <- imm`. -/
  | jmi (imm : Addr)
  /-- 0x22, R142: `pc <- mem[addr]`. -/
  | jmp (addr : Addr)
  /-- 0x23, R143: if Z = 1, `pc <- imm`. -/
  | jiz (imm : Addr)
  /-- 0x24, R144: if Z = 1, `pc <- mem[addr]`. -/
  | jmz (addr : Addr)
  /-- 0x25, R145: if Z = 0, `pc <- imm`. -/
  | jin (imm : Addr)
  /-- 0x26, R146: if Z = 0, `pc <- mem[addr]`. -/
  | jmn (addr : Addr)
  /-- The default row, R68 and R84: any of the 239 opcode bytes with no row of their own, a one-byte no-op. The byte
  is kept, so that no bit of an encoding is dropped. -/
  | unknown (opcode : Byte)
  deriving DecidableEq, Repr

end Sys2Proof
end

