-- ==== Sys2Proof/Machine/Dispatch.lean ====
section
/-! DEFINITION. One arm for each instruction (R83): a direct call of its meaning. -/

namespace Sys2Proof.Machine

/-- What an instruction does to the state in which its bytes have been fetched. -/
def exec (i : Instr) (s : State) : Host.Outcome State Fault Refusal :=
  match i with
  | .ldi imm => Sys2Proof.Machine.execLdi imm s
  | .lda addr => Sys2Proof.Machine.execLda addr s
  | .sta addr => Sys2Proof.Machine.execSta addr s
  | .ldf => Sys2Proof.Machine.execLdf s
  | .stf => Sys2Proof.Machine.execStf s
  | .cmp imm => Sys2Proof.Machine.execCmp imm s
  | .adi imm => Sys2Proof.Machine.execAdi imm s
  | .add addr => Sys2Proof.Machine.execAdd addr s
  | .sui imm => Sys2Proof.Machine.execSui imm s
  | .sub addr => Sys2Proof.Machine.execSub addr s
  | .ldp => Sys2Proof.Machine.execLdp s
  | .jmi imm => Sys2Proof.Machine.execJmi imm s
  | .jmp addr => Sys2Proof.Machine.execJmp addr s
  | .jiz imm => Sys2Proof.Machine.execJiz imm s
  | .jmz addr => Sys2Proof.Machine.execJmz addr s
  | .jin imm => Sys2Proof.Machine.execJin imm s
  | .jmn addr => Sys2Proof.Machine.execJmn addr s
  | .unknown opcode => Sys2Proof.Machine.execUnknown opcode s

end Sys2Proof.Machine
end

