-- ==== Sys2Proof/WellFormed.lean ====
section
/-! DEFINITION. Which instructions are well formed. Every operand value is legal (R64), so the only check is that the
byte an `unknown` carries is an unknown opcode. It is written from the ranges of R68, and the decoder from the table of
R66: the two are compared by a statement (`Obligations.UnknownOpcodesAreTheRangesOfTheSpec`). -/

namespace Sys2Proof

/-- R68: the four ranges of unknown opcodes. -/
def isUnknownOpcode (op : Byte) : Bool :=
  op == 0x00#8
    || (0x06#8 ≤ op && op ≤ 0x0F#8)
    || (0x15#8 ≤ op && op ≤ 0x1F#8)
    || (0x27#8 ≤ op && op ≤ 0xFF#8)

/-- R64 and R68: an instruction of a table row is well formed with any operand, and `unknown op` is well formed if
`op` is an unknown opcode. -/
def Instr.wellFormed : Instr → Bool
  | .ldi _ | .lda _ | .sta _ | .ldf | .stf => true
  | .cmp _ | .adi _ | .add _ | .sui _ | .sub _ => true
  | .ldp | .jmi _ | .jmp _ | .jiz _ | .jmz _ | .jin _ | .jmn _ => true
  | .unknown op => isUnknownOpcode op

end Sys2Proof
end

