-- ==== Sys2Proof/Decode.lean ====
section
/-! DEFINITION. The decoder, total on any bytes, and after it the encoder, both from the opcode map of R66. No byte
pattern is illegal (R69): the decoder rejects, by name, only a byte sequence that ends before the instruction does. -/

namespace Sys2Proof

/-- What the opcode byte alone settles (R60, R62): a whole instruction of format B1, or an instruction of format B2
that waits for its operand byte. -/
inductive Format where
  | b1 (i : Instr)
  | b2 (withOperand : Byte → Instr)

/-- R65, R66: all eight bits of the opcode byte are compared with the table, and every other byte is an unknown opcode
(R68). -/
def dispatchOpcode (op : Byte) : Format :=
  match op with
  | 0x01#8 => .b2 .ldi
  | 0x02#8 => .b2 .lda
  | 0x03#8 => .b2 .sta
  | 0x04#8 => .b1 .ldf
  | 0x05#8 => .b1 .stf
  | 0x10#8 => .b2 .cmp
  | 0x11#8 => .b2 .adi
  | 0x12#8 => .b2 .add
  | 0x13#8 => .b2 .sui
  | 0x14#8 => .b2 .sub
  | 0x20#8 => .b1 .ldp
  | 0x21#8 => .b2 .jmi
  | 0x22#8 => .b2 .jmp
  | 0x23#8 => .b2 .jiz
  | 0x24#8 => .b2 .jmz
  | 0x25#8 => .b2 .jin
  | 0x26#8 => .b2 .jmn
  | _ => .b1 (.unknown op)

/-- Why a byte sequence holds no whole instruction. Neither can happen in the machine, whose fetch unit always has a
next byte (R80). -/
inductive DecodeReject where
  /-- The sequence is empty. -/
  | noOpcode
  /-- The sequence ends after the opcode of a two-byte instruction. -/
  | noOperand
  deriving DecidableEq, Repr

/-- The instruction at the head of a byte sequence in fetch order (R61), with the bytes after it. -/
def decode : List Byte → Except DecodeReject (Instr × List Byte)
  | [] => .error .noOpcode
  | op :: rest =>
    match dispatchOpcode op with
    | .b1 i => .ok (i, rest)
    | .b2 withOperand =>
      match rest with
      | [] => .error .noOperand
      | operand :: rest' => .ok (withOperand operand, rest')

/-- R66: the bytes of an instruction in fetch order, opcode first (R61). -/
def encode : Instr → List Byte
  | .ldi imm => [0x01#8, imm]
  | .lda addr => [0x02#8, addr]
  | .sta addr => [0x03#8, addr]
  | .ldf => [0x04#8]
  | .stf => [0x05#8]
  | .cmp imm => [0x10#8, imm]
  | .adi imm => [0x11#8, imm]
  | .add addr => [0x12#8, addr]
  | .sui imm => [0x13#8, imm]
  | .sub addr => [0x14#8, addr]
  | .ldp => [0x20#8]
  | .jmi imm => [0x21#8, imm]
  | .jmp addr => [0x22#8, addr]
  | .jiz imm => [0x23#8, imm]
  | .jmz addr => [0x24#8, addr]
  | .jin imm => [0x25#8, imm]
  | .jmn addr => [0x26#8, addr]
  | .unknown op => [op]

/-- R62: how many bytes an instruction has. -/
def Instr.length : Instr → Nat
  | .ldi _ | .lda _ | .sta _ => 2
  | .ldf | .stf => 1
  | .cmp _ | .adi _ | .add _ | .sui _ | .sub _ => 2
  | .ldp => 1
  | .jmi _ | .jmp _ | .jiz _ | .jmz _ | .jin _ | .jmn _ => 2
  | .unknown _ => 1

/-- The two bytes, the longest instruction, of an instruction word numbered as spec/opcode_table.json numbers it: bits
7:0 are the opcode, bits 15:8 the operand, and the bits from `nbits` up are 0. -/
def tableBytes (nbits w : Nat) : List Byte :=
  let word := w % 2 ^ nbits
  [BitVec.ofNat 8 word, BitVec.ofNat 8 (word / 256)]

/-- The instruction the decoder reads from a table word. -/
def decodeTableWord (nbits w : Nat) : Option Instr :=
  match decode (tableBytes nbits w) with
  | .ok (i, _) => some i
  | .error _ => none

end Sys2Proof
end

