-- ==== Sys2Proof/Machine/Fetch.lean ====
section
/-! DEFINITION. Fetching an instruction: the opcode, and the operand if the opcode takes one, each through the fetch
unit (R82, R83). -/

namespace Sys2Proof.Machine

/-- The next instruction, and the state after the fetches of its one or two bytes. -/
def fetchInstr (s : State) : Instr × State :=
  let opcode := fetch s
  match dispatchOpcode opcode.1 with
  | .b1 i => (i, opcode.2)
  | .b2 withOperand =>
    let operand := fetch opcode.2
    (withOperand operand.1, operand.2)

/-- The bytes of a table word that belong to its instruction: the opcode, and the operand if the opcode takes one. -/
def tableInstrBytes (nbits w : Nat) : List Byte :=
  match decodeTableWord nbits w with
  | some i => (tableBytes nbits w).take i.length
  | none => []

end Sys2Proof.Machine
end

