-- ==== Sys2Proof/Machine/Step.lean ====
section
/-! DEFINITION. One step: fetch one instruction and run it (R83). -/

namespace Sys2Proof.Machine

/-- R83, `step()`. -/
def step (s : State) : Host.Outcome State Fault Refusal :=
  exec (fetchInstr s).1 (fetchInstr s).2

/-- The state with a table word's instruction stored where the next step fetches: at `pc`, an operand at the fetch
address after it (R61). This is the host's `writeMemory` of each of its bytes (R194). -/
def State.withFetchWord (s : State) (nbits w : Nat) : State :=
  writeBytes s.pc (tableInstrBytes nbits w) s

end Sys2Proof.Machine
end

