-- ==== Sys2Proof/Machine/Transactions.lean ====
section
/-! DEFINITION. The block's external interface (R34): each operation is one atomic transaction, and a run is a sequence
of transactions (R48). -/

namespace Sys2Proof.Machine

/-- R34: the operations of the interface, with their arguments. -/
inductive Transaction where
  | reset
  | step
  | readMemory (addr : Addr)
  | writeMemory (addr : Addr) (value : Byte)
  | observePc
  | observeAcc
  | observeFlags
  deriving DecidableEq, Repr

/-- R34, the effect column. -/
def transact (t : Transaction) (s : State) : Host.Outcome State Fault Refusal :=
  match t with
  | .reset => .next (resetRegisters s)
  | .step => step s
  | .readMemory _ => .next s
  | .writeMemory addr value => .next (hostWrite addr value s)
  | .observePc => .next s
  | .observeAcc => .next s
  | .observeFlags => .next s

/-- R34, the returns column: what the transaction, issued in this state, returns to the host. -/
def answer (t : Transaction) (s : State) : Option Byte :=
  match t with
  | .reset => none
  | .step => none
  | .readMemory addr => some (hostRead addr s)
  | .writeMemory _ _ => none
  | .observePc => some s.pc
  | .observeAcc => some s.acc
  | .observeFlags => some s.flags

/-- R48: the transactions of a run, one after another. -/
def transactAll : List Transaction → State → Host.Outcome State Fault Refusal
  | [], s => .next s
  | t :: ts, s =>
    match transact t s with
    | .next s' => transactAll ts s'
    | .fault r => .fault r
    | .refused r => .refused r

end Sys2Proof.Machine
end

