-- ==== Sys2Proof/Safety.lean ====
section
/-! DEFINITION. The terms the claims use: the invariant of a run, what a step fetches, and the writes a run makes. -/

namespace Sys2Proof.Machine

/-- The memory is in its canonical form: it lists only cells of the address space (R40), each once. The registers need
no clause: every byte is a legal value of each (R21, R27, R28). -/
abbrev State.Inv (s : State) : Prop := s.mem.wf = true

/-- The opcode byte of the next step. -/
def State.opcode (s : State) : Byte := s.mem.read s.pc

/-- The byte a fetch after the opcode fetch reads: the operand, if the opcode takes one (R61). -/
def State.operand (s : State) : Byte := s.mem.read (s.pc + 1#8)

/-- R62: the opcodes of the two-byte instructions. Every other opcode byte is a one-byte instruction. -/
def twoByteOpcodes : List Byte :=
  [0x01#8, 0x02#8, 0x03#8, 0x10#8, 0x11#8, 0x12#8, 0x13#8, 0x14#8, 0x21#8, 0x22#8, 0x23#8, 0x24#8, 0x25#8, 0x26#8]

/-- R50: whether the next step accesses the cell its operand names, to read it (`lda`, `add`, `sub`, `jmp`, and `jmz` and
`jmn` when taken) or to write it (`sta`). -/
abbrev State.accessesData (s : State) : Prop :=
  s.opcode ∈ [0x02#8, 0x03#8, 0x12#8, 0x14#8, 0x22#8] ∨
    (s.opcode = 0x24#8 ∧ s.flags.getLsbD 0 = true) ∨ (s.opcode = 0x26#8 ∧ s.flags.getLsbD 0 = false)

/-- The write to memory a transaction makes, if it makes one: the host's `writeMemory`, or a step whose opcode is `sta`
(0x03), which stores `acc` at its operand (R42). -/
def storeOf (t : Transaction) (s : State) : Option (Addr × Byte) :=
  match t with
  | .writeMemory addr value => some (addr, value)
  | .step => if s.opcode = 0x03#8 then some (s.operand, s.acc) else none
  | .reset | .readMemory _ | .observePc | .observeAcc | .observeFlags => none

/-- The writes of a run of transactions, oldest first. -/
def storesOf : List Transaction → State → List (Addr × Byte)
  | [], _ => []
  | t :: ts, s =>
    match transact t s with
    | .next s' => (storeOf t s).toList ++ storesOf ts s'
    | .fault _ => []
    | .refused _ => []

/-- The value of the latest write to cell `a`, in a list of writes with the oldest first. -/
def latestWrite (writes : List (Addr × Byte)) (a : Addr) : Option Byte :=
  (writes.reverse.find? (fun w => w.1 == a)).map (fun w => w.2)

end Sys2Proof.Machine
end

