-- ==== Sys2Proof/Certificates/Slice0/Obligations.lean ====
section
/-! DEFINITION. The statements for the provers. In a docstring R<n> names the rule of spec/ that a statement formalises;
"the spec's inference" or "the spec's decision" says that the spec marks the rule so, and "the model's choice" that the
statement is about this model's own form. No statement rests on what `State.reset`'s memory reads as, except the one
that says so. -/

open Sys2Proof Sys2Proof.Machine

/-! Encoding -/

/-- 30_encoding.md sections 1 to 4: the decoder reads back every well-formed instruction, every operand value and every
unknown opcode among them, and takes exactly its bytes from the stream. -/
def Obligations.DecodingAnEncodedInstructionGivesItBack : Prop :=
  ∀ (i : Instr) (rest : List Byte), i.wellFormed = true → decode (encode i ++ rest) = .ok (i, rest)

/-- 30_encoding.md sections 3 and 4: whatever the decoder reads is well formed, and its encoding is the bytes read, so
that each byte sequence has one meaning and no bit is dropped. -/
def Obligations.EncodingADecodedInstructionGivesItsBytes : Prop :=
  ∀ (bytes rest : List Byte) (i : Instr), decode bytes = .ok (i, rest) →
    i.wellFormed = true ∧ encode i ++ rest = bytes

/-- R69: no opcode byte, and no two-byte pattern, is illegal. -/
def Obligations.EveryBytePatternDecodes : Prop :=
  ∀ (op operand : Byte) (rest : List Byte), ∃ i rest', decode (op :: operand :: rest) = .ok (i, rest')

/-- R62: the length of an instruction depends on its opcode byte alone. -/
def Obligations.LengthDependsOnOpcodeAlone : Prop :=
  ∀ (op operand : Byte) (rest rest' : List Byte) (i : Instr), decode (op :: operand :: rest) = .ok (i, rest') →
    (op ∈ [0x01#8, 0x02#8, 0x03#8, 0x10#8, 0x11#8, 0x12#8, 0x13#8, 0x14#8, 0x21#8, 0x22#8, 0x23#8, 0x24#8, 0x25#8,
        0x26#8] → i.length = 2 ∧ rest' = rest) ∧
    (op ∉ [0x01#8, 0x02#8, 0x03#8, 0x10#8, 0x11#8, 0x12#8, 0x13#8, 0x14#8, 0x21#8, 0x22#8, 0x23#8, 0x24#8, 0x25#8,
        0x26#8] → i.length = 1 ∧ rest' = operand :: rest)

/-- R68: the unknown opcodes are the four ranges, 239 bytes, and each is a one-byte instruction that changes nothing. -/
def Obligations.UnknownOpcodesAreTheRangesOfTheSpec : Prop :=
  (∀ (op : Byte) (rest : List Byte),
    decode (op :: rest) = .ok (.unknown op, rest) ↔
      op = 0x00#8 ∨ (0x06 ≤ op.toNat ∧ op.toNat ≤ 0x0F) ∨ (0x15 ≤ op.toNat ∧ op.toNat ≤ 0x1F) ∨
        (0x27 ≤ op.toNat ∧ op.toNat ≤ 0xFF)) ∧
  ((List.range 256).filter (fun n => Instr.wellFormed (.unknown (BitVec.ofNat 8 n)))).length = 239 ∧
  ∀ (op : Byte) (s : State), exec (.unknown op) s = .next s

/-- R73: the spec's own example, `ldi 5; cmp 5`. -/
def Obligations.SpecEncodingExampleDecodes : Prop :=
  decode [0x01#8, 0x05#8, 0x10#8, 0x05#8] = .ok (.ldi 0x05#8, [0x10#8, 0x05#8]) ∧
    decode [0x10#8, 0x05#8] = .ok (.cmp 0x05#8, [])

/-- 30_encoding.md section 3: the rows of the opcode map, with any operand byte. -/
def Obligations.OpcodeMapRowsDecode : Prop :=
  ∀ x : Byte,
    decode [0x01#8, x] = .ok (.ldi x, []) ∧ decode [0x02#8, x] = .ok (.lda x, []) ∧
    decode [0x03#8, x] = .ok (.sta x, []) ∧ decode [0x04#8] = .ok (.ldf, []) ∧ decode [0x05#8] = .ok (.stf, []) ∧
    decode [0x10#8, x] = .ok (.cmp x, []) ∧ decode [0x11#8, x] = .ok (.adi x, []) ∧
    decode [0x12#8, x] = .ok (.add x, []) ∧ decode [0x13#8, x] = .ok (.sui x, []) ∧
    decode [0x14#8, x] = .ok (.sub x, []) ∧ decode [0x20#8] = .ok (.ldp, []) ∧
    decode [0x21#8, x] = .ok (.jmi x, []) ∧ decode [0x22#8, x] = .ok (.jmp x, []) ∧
    decode [0x23#8, x] = .ok (.jiz x, []) ∧ decode [0x24#8, x] = .ok (.jmz x, []) ∧
    decode [0x25#8, x] = .ok (.jin x, []) ∧ decode [0x26#8, x] = .ok (.jmn x, [])

/-! Fetch and step -/

/-- R80: `fetch()` returns the byte at the `pc` before the advance, and writes nothing but the `pc`. -/
def Obligations.FetchReturnsByteAndAdvancesPc : Prop :=
  ∀ s : State,
    fetch s = (s.mem.read s.pc, { s with pc := if s.pc = 0xFF#8 then 0x00#8 else s.pc + 1#8 })

/-- 40_fetch_dispatch.md section 2: where the two bytes in fetch order from the `pc` on decode to `i`, the step is `exec`
of `i` on the state with the `pc` past its bytes and nothing else changed. -/
def Obligations.StepRunsTheDecodedInstruction : Prop :=
  ∀ (s : State) (i : Instr) (rest : List Byte),
    decode [s.mem.read s.pc, s.mem.read (s.pc + 1#8)] = .ok (i, rest) →
      step s = exec i { s with pc := s.pc + BitVec.ofNat 8 i.length }

/-- R85: `step()` never fails: it answers a next state in every state. -/
def Obligations.StepAnswersANextStateAlways : Prop :=
  ∀ s : State, ∃ t : State, step s = .next t

/-- R84: a step on an unknown opcode advances the `pc` by one modulo 256 and changes nothing else. -/
def Obligations.UnknownOpcodeOnlyAdvancesPc : Prop :=
  ∀ s : State, isUnknownOpcode (s.mem.read s.pc) = true → step s = .next { s with pc := s.pc + 1#8 }

/-- 40_fetch_dispatch.md section 2, the spec's inference "Where the pc goes": the target of a taken jump, and otherwise
past the instruction's bytes, modulo 256. -/
def Obligations.PcAfterAnyStep : Prop :=
  ∀ s : State, ∃ t : State, step s = .next t ∧
    t.pc =
      if s.opcode = 0x21#8 ∨ (s.opcode = 0x23#8 ∧ s.flags.getLsbD 0 = true) ∨
          (s.opcode = 0x25#8 ∧ s.flags.getLsbD 0 = false) then s.operand
      else if s.opcode = 0x22#8 ∨ (s.opcode = 0x24#8 ∧ s.flags.getLsbD 0 = true) ∨
          (s.opcode = 0x26#8 ∧ s.flags.getLsbD 0 = false) then s.mem.read s.operand
      else if s.opcode ∈ twoByteOpcodes then s.pc + 2#8
      else s.pc + 1#8

/-- 40_fetch_dispatch.md section 2, the spec's inference: state and memory are finite, so every run of steps alone is
eventually periodic. The premise is the canonical form of memory (the model's choice, log entry 2). -/
def Obligations.EveryRunOfStepsIsEventuallyPeriodic : Prop :=
  ∀ s : State, s.Inv → ∃ (n p : Nat) (t : State), 0 < p ∧
    Host.Core.run Sys2Proof.core n s = .next t ∧ Host.Core.run Sys2Proof.core (n + p) s = .next t

/-- 92_eei_decisions.md D6, the spec's decision: a jump to its own address parks, for any number of steps. -/
def Obligations.SelfJumpParksForever : Prop :=
  ∀ (s : State) (n : Nat), s.mem.read s.pc = 0x21#8 → s.mem.read (s.pc + 1#8) = s.pc →
    Host.Core.run Sys2Proof.core n s = .next s

/-! The instructions: the effect of each meaning, and of a whole step on its opcode -/

/-- R100. -/
def Obligations.LdiLoadsTheImmediate : Prop :=
  ∀ s : State,
    (∀ imm, exec (.ldi imm) s = .next { s with acc := imm }) ∧
    (s.mem.read s.pc = 0x01#8 →
      step s = .next { s with pc := s.pc + 2#8, acc := s.mem.read (s.pc + 1#8) })

/-- R101. -/
def Obligations.LdaLoadsFromMemory : Prop :=
  ∀ s : State,
    (∀ a, exec (.lda a) s = .next { s with acc := s.mem.read a }) ∧
    (s.mem.read s.pc = 0x02#8 →
      step s = .next { s with pc := s.pc + 2#8, acc := s.mem.read (s.mem.read (s.pc + 1#8)) })

/-- R102: the store, and its frame: no register but the `pc`, and no byte but the one stored, is changed. -/
def Obligations.StaStoresTheAccumulator : Prop :=
  ∀ s : State,
    (∀ a, ∃ t : State, exec (.sta a) s = .next t ∧ t.pc = s.pc ∧ t.acc = s.acc ∧ t.flags = s.flags ∧
      t.mem.read a = s.acc ∧ ∀ b, b ≠ a → t.mem.read b = s.mem.read b) ∧
    (s.mem.read s.pc = 0x03#8 →
      ∃ t : State, step s = .next t ∧ t.pc = s.pc + 2#8 ∧ t.acc = s.acc ∧ t.flags = s.flags ∧
        t.mem.read (s.mem.read (s.pc + 1#8)) = s.acc ∧
        ∀ b, b ≠ s.mem.read (s.pc + 1#8) → t.mem.read b = s.mem.read b)

/-- R103. -/
def Obligations.LdfLoadsAllEightFlagBits : Prop :=
  ∀ s : State,
    exec .ldf s = .next { s with acc := s.flags } ∧
    (s.mem.read s.pc = 0x04#8 → step s = .next { s with pc := s.pc + 1#8, acc := s.flags })

/-- R104. -/
def Obligations.StfStoresAllEightFlagBits : Prop :=
  ∀ s : State,
    exec .stf s = .next { s with flags := s.acc } ∧
    (s.mem.read s.pc = 0x05#8 → step s = .next { s with pc := s.pc + 1#8, flags := s.acc })

/-- R124: `flags` keeps bits 7:1 and takes the equality in bit 0. -/
def Obligations.CmpSetsZFromEquality : Prop :=
  ∀ s : State,
    (∀ imm : Byte, exec (.cmp imm) s =
      .next { s with flags := s.flags.extractLsb' 1 7 ++ BitVec.ofBool (decide (imm = s.acc)) }) ∧
    (∀ imm : Byte, imm = s.acc ↔ s.acc - imm = 0x00#8) ∧
    (s.mem.read s.pc = 0x10#8 →
      step s = .next { s with
        pc := s.pc + 2#8
        flags := s.flags.extractLsb' 1 7 ++ BitVec.ofBool (decide (s.mem.read (s.pc + 1#8) = s.acc)) })

/-- R125. -/
def Obligations.AdiAddsTheImmediate : Prop :=
  ∀ s : State,
    (∀ imm : Byte, exec (.adi imm) s =
      .next { s with
        acc := s.acc + imm
        flags := s.flags.extractLsb' 1 7 ++ BitVec.ofBool (decide (s.acc + imm = 0x00#8)) }) ∧
    (s.mem.read s.pc = 0x11#8 →
      step s = .next { s with
        pc := s.pc + 2#8
        acc := s.acc + s.mem.read (s.pc + 1#8)
        flags := s.flags.extractLsb' 1 7 ++ BitVec.ofBool (decide (s.acc + s.mem.read (s.pc + 1#8) = 0x00#8)) })

/-- R126. -/
def Obligations.AddAddsFromMemory : Prop :=
  ∀ s : State,
    (∀ a : Addr, exec (.add a) s =
      .next { s with
        acc := s.acc + s.mem.read a
        flags := s.flags.extractLsb' 1 7 ++ BitVec.ofBool (decide (s.acc + s.mem.read a = 0x00#8)) }) ∧
    (s.mem.read s.pc = 0x12#8 →
      step s = .next { s with
        pc := s.pc + 2#8
        acc := s.acc + s.mem.read (s.mem.read (s.pc + 1#8))
        flags := s.flags.extractLsb' 1 7 ++
          BitVec.ofBool (decide (s.acc + s.mem.read (s.mem.read (s.pc + 1#8)) = 0x00#8)) })

/-- R127 and R128: `sui` adds, and computes the same function as `adi`. -/
def Obligations.SuiAddsDespiteItsName : Prop :=
  ∀ s : State,
    (∀ imm : Byte, exec (.sui imm) s =
      .next { s with
        acc := s.acc + imm
        flags := s.flags.extractLsb' 1 7 ++ BitVec.ofBool (decide (s.acc + imm = 0x00#8)) }) ∧
    (∀ imm : Byte, exec (.sui imm) s = exec (.adi imm) s) ∧
    (s.mem.read s.pc = 0x13#8 →
      step s = .next { s with
        pc := s.pc + 2#8
        acc := s.acc + s.mem.read (s.pc + 1#8)
        flags := s.flags.extractLsb' 1 7 ++ BitVec.ofBool (decide (s.acc + s.mem.read (s.pc + 1#8) = 0x00#8)) })

/-- R129: the accumulator is the minuend. -/
def Obligations.SubSubtractsMemoryFromAcc : Prop :=
  ∀ s : State,
    (∀ a : Addr, exec (.sub a) s =
      .next { s with
        acc := s.acc - s.mem.read a
        flags := s.flags.extractLsb' 1 7 ++ BitVec.ofBool (decide (s.acc - s.mem.read a = 0x00#8)) }) ∧
    (s.mem.read s.pc = 0x14#8 →
      step s = .next { s with
        pc := s.pc + 2#8
        acc := s.acc - s.mem.read (s.mem.read (s.pc + 1#8))
        flags := s.flags.extractLsb' 1 7 ++
          BitVec.ofBool (decide (s.acc - s.mem.read (s.mem.read (s.pc + 1#8)) = 0x00#8)) })

/-- R140: `ldp` sees the address after its own opcode. -/
def Obligations.LdpLoadsThePcAfterItsOpcode : Prop :=
  ∀ s : State,
    exec .ldp s = .next { s with acc := s.pc } ∧
    (s.mem.read s.pc = 0x20#8 → step s = .next { s with pc := s.pc + 1#8, acc := s.pc + 1#8 })

/-- R141. -/
def Obligations.JmiJumpsToTheImmediate : Prop :=
  ∀ s : State,
    (∀ target, exec (.jmi target) s = .next { s with pc := target }) ∧
    (s.mem.read s.pc = 0x21#8 → step s = .next { s with pc := s.mem.read (s.pc + 1#8) })

/-- R142: one level of indirection. -/
def Obligations.JmpJumpsThroughMemory : Prop :=
  ∀ s : State,
    (∀ a, exec (.jmp a) s = .next { s with pc := s.mem.read a }) ∧
    (s.mem.read s.pc = 0x22#8 → step s = .next { s with pc := s.mem.read (s.mem.read (s.pc + 1#8)) })

/-- R143: taken if Z is set, and past the operand otherwise. -/
def Obligations.JizJumpsIfZIsSet : Prop :=
  ∀ s : State,
    (∀ target, exec (.jiz target) s = .next { s with pc := if s.flags.getLsbD 0 then target else s.pc }) ∧
    (s.mem.read s.pc = 0x23#8 →
      step s = .next { s with pc := if s.flags.getLsbD 0 then s.mem.read (s.pc + 1#8) else s.pc + 2#8 })

/-- R144: taken if Z is set, and past the operand otherwise. -/
def Obligations.JmzJumpsThroughMemoryIfZIsSet : Prop :=
  ∀ s : State,
    (∀ a, exec (.jmz a) s = .next { s with pc := if s.flags.getLsbD 0 then s.mem.read a else s.pc }) ∧
    (s.mem.read s.pc = 0x24#8 →
      step s = .next { s with
        pc := if s.flags.getLsbD 0 then s.mem.read (s.mem.read (s.pc + 1#8)) else s.pc + 2#8 })

/-- R145: taken if Z is clear, and past the operand otherwise. -/
def Obligations.JinJumpsIfZIsClear : Prop :=
  ∀ s : State,
    (∀ target, exec (.jin target) s = .next { s with pc := if s.flags.getLsbD 0 then s.pc else target }) ∧
    (s.mem.read s.pc = 0x25#8 →
      step s = .next { s with pc := if s.flags.getLsbD 0 then s.pc + 2#8 else s.mem.read (s.pc + 1#8) })

/-- R146: taken if Z is clear, and past the operand otherwise. -/
def Obligations.JmnJumpsThroughMemoryIfZIsClear : Prop :=
  ∀ s : State,
    (∀ a, exec (.jmn a) s = .next { s with pc := if s.flags.getLsbD 0 then s.pc else s.mem.read a }) ∧
    (s.mem.read s.pc = 0x26#8 →
      step s = .next { s with
        pc := if s.flags.getLsbD 0 then s.pc + 2#8 else s.mem.read (s.mem.read (s.pc + 1#8)) })

/-! The laws of the ALU and of the branches -/

/-- R122: after `adi`, `add`, `sui` and `sub`, Z says whether the resulting `acc` is 0, and bits 7:1 are unchanged. -/
def Obligations.ArithmeticZeroFlagLaw : Prop :=
  ∀ (b : Byte) (s : State), ∀ i ∈ [Instr.adi b, .add b, .sui b, .sub b],
    ∃ t : State, exec i s = .next t ∧
      (t.flags.getLsbD 0 = true ↔ t.acc = 0x00#8) ∧
      ∀ k, 1 ≤ k → k < 8 → t.flags.getLsbD k = s.flags.getLsbD k

/-- R123: where the result goes, and that no ALU instruction writes memory or the `pc` beyond the fetches. -/
def Obligations.AluResultGoesToAccOnly : Prop :=
  ∀ (b : Byte) (s : State),
    ∀ r ∈ [(Instr.cmp b, s.acc), (.adi b, s.acc + b), (.add b, s.acc + s.mem.read b), (.sui b, s.acc + b),
        (.sub b, s.acc - s.mem.read b)],
      ∃ t : State, exec r.1 s = .next t ∧ t.acc = r.2 ∧ t.pc = s.pc ∧ ∀ a, t.mem.read a = s.mem.read a

/-- R29: bit 0 is set or cleared by the result alone, whatever `flags` held: a full overwrite, not a merge. -/
def Obligations.ZeroFlagIsOverwrittenNotMerged : Prop :=
  ∀ (b : Byte) (s : State),
    ∀ r ∈ [(Instr.cmp b, s.acc - b), (.adi b, s.acc + b), (.add b, s.acc + s.mem.read b), (.sui b, s.acc + b),
        (.sub b, s.acc - s.mem.read b)],
      ∀ old : Byte, ∃ t : State, exec r.1 { s with flags := old } = .next t ∧
        (t.flags.getLsbD 0 = true ↔ r.2 = 0x00#8)

/-- R121: results are exact sums and differences of unsigned numbers modulo 256, and nothing but `acc` and Z records
them. -/
def Obligations.ArithmeticWrapsModulo256 : Prop :=
  ∀ (b : Byte) (s : State),
    ∀ r ∈ [(Instr.adi b, (s.acc.toNat + b.toNat) % 256),
        (.add b, (s.acc.toNat + (s.mem.read b).toNat) % 256),
        (.sui b, (s.acc.toNat + b.toNat) % 256),
        (.sub b, (s.acc.toNat + 256 - (s.mem.read b).toNat) % 256)],
      ∃ t : State, exec r.1 s = .next t ∧ t.acc.toNat = r.2 ∧
        t = { s with acc := t.acc, flags := s.flags.extractLsb' 1 7 ++ BitVec.ofBool (t.acc == 0x00#8) }

/-- R147: a conditional jump always consumes its operand: taken, the operand settles the new `pc`, and not taken, the
next instruction is the one after the operand. -/
def Obligations.ConditionalJumpAlwaysConsumesItsOperand : Prop :=
  ∀ s : State,
    ∀ r ∈ [(0x23#8, s.flags.getLsbD 0, s.operand), (0x24#8, s.flags.getLsbD 0, s.mem.read s.operand),
        (0x25#8, !s.flags.getLsbD 0, s.operand), (0x26#8, !s.flags.getLsbD 0, s.mem.read s.operand)],
      s.opcode = r.1 →
        (r.2.1 = true → step s = .next { s with pc := r.2.2 }) ∧
        (r.2.1 = false → step s = .next { s with pc := s.pc + 2#8 })

/-- R149: a branch reads bit 0 of `flags` only: with any other bits 7:1 it goes the same way, and keeps them. 0xFE counts
as Z clear, 0x01 and 0xFF as Z set. -/
def Obligations.BranchReadsOnlyTheZeroFlag : Prop :=
  (∀ (s : State) (f x : Byte), f.getLsbD 0 = s.flags.getLsbD 0 →
    ∀ i ∈ [Instr.jiz x, .jmz x, .jin x, .jmn x],
      ∃ t : State, exec i s = .next t ∧ exec i { s with flags := f } = .next { t with flags := f }) ∧
  ∀ (s : State) (x : Byte),
    (s.flags = 0xFE#8 →
      exec (.jiz x) s = .next s ∧ exec (.jmz x) s = .next s ∧
      exec (.jin x) s = .next { s with pc := x } ∧ exec (.jmn x) s = .next { s with pc := s.mem.read x }) ∧
    (s.flags = 0x01#8 ∨ s.flags = 0xFF#8 →
      exec (.jiz x) s = .next { s with pc := x } ∧ exec (.jmz x) s = .next { s with pc := s.mem.read x } ∧
      exec (.jin x) s = .next s ∧ exec (.jmn x) s = .next s)

/-- 41_load_store.md, 42_alu.md and 43_control.md, each instruction's own rule: what `exec` leaves unchanged. The `pc` it
starts from is already past the instruction (the model's choice, log entry 3). -/
def Obligations.FrameOfEveryInstruction : Prop :=
  ∀ (i : Instr) (s : State), ∃ t : State, exec i s = .next t ∧
    (match i with
      | .ldi _ | .lda _ | .ldf | .adi _ | .add _ | .sui _ | .sub _ | .ldp => True
      | .sta _ | .stf | .cmp _ | .jmi _ | .jmp _ | .jiz _ | .jmz _ | .jin _ | .jmn _ | .unknown _ => t.acc = s.acc) ∧
    (match i with
      | .stf => True
      | .cmp _ | .adi _ | .add _ | .sui _ | .sub _ =>
        ∀ k, 1 ≤ k → k < 8 → t.flags.getLsbD k = s.flags.getLsbD k
      | .ldi _ | .lda _ | .sta _ | .ldf | .ldp | .jmi _ | .jmp _ | .jiz _ | .jmz _ | .jin _ | .jmn _ | .unknown _ =>
        t.flags = s.flags) ∧
    (match i with
      | .jmi _ | .jmp _ | .jiz _ | .jmz _ | .jin _ | .jmn _ => True
      | .ldi _ | .lda _ | .sta _ | .ldf | .stf | .cmp _ | .adi _ | .add _ | .sui _ | .sub _ | .ldp | .unknown _ =>
        t.pc = s.pc) ∧
    ∀ a, i ≠ .sta a → t.mem.read a = s.mem.read a

/-! What changes what: over every transaction of the host interface -/

/-- 10_state.md section 2, the spec's inference "Which instructions write `acc`". -/
def Obligations.AccIsWrittenOnlyByItsInstructionsAndReset : Prop :=
  ∀ (tr : Transaction) (s t : State), transact tr s = .next t → t.acc ≠ s.acc →
    tr = .reset ∨
      (tr = .step ∧ s.opcode ∈ [0x01#8, 0x02#8, 0x04#8, 0x11#8, 0x12#8, 0x13#8, 0x14#8, 0x20#8])

/-- 10_state.md section 4, the spec's inferences: bits 7:1 of `flags` are changed only by `stf` and reset, and bit 0 by
these and the five flag-affecting instructions. -/
def Obligations.FlagsAreWrittenOnlyByTheirInstructionsAndReset : Prop :=
  ∀ (tr : Transaction) (s t : State), transact tr s = .next t →
    (∀ k, 1 ≤ k → k < 8 → t.flags.getLsbD k ≠ s.flags.getLsbD k →
      tr = .reset ∨ (tr = .step ∧ s.opcode = 0x05#8)) ∧
    (t.flags.getLsbD 0 ≠ s.flags.getLsbD 0 →
      tr = .reset ∨ (tr = .step ∧ s.opcode ∈ [0x05#8, 0x10#8, 0x11#8, 0x12#8, 0x13#8, 0x14#8]))

/-- 10_state.md section 3: the host changes the `pc` by `reset` and `step` only, and no step but one on a jump leaves it
anywhere but past the instruction's bytes. -/
def Obligations.PcIsWrittenOnlyByFetchJumpAndReset : Prop :=
  ∀ (tr : Transaction) (s t : State), transact tr s = .next t → t.pc ≠ s.pc →
    (tr = .reset ∧ t.pc = 0x00#8) ∨
      (tr = .step ∧
        (t.pc = s.pc + 1#8 ∨ t.pc = s.pc + 2#8 ∨
          s.opcode ∈ [0x21#8, 0x22#8, 0x23#8, 0x24#8, 0x25#8, 0x26#8]))

/-- R42: memory is changed only by `sta`, at its operand, and by the host's `writeMemory`, at its address. -/
def Obligations.MemoryIsWrittenOnlyByStaAndTheHost : Prop :=
  ∀ (tr : Transaction) (s t : State) (a : Addr), transact tr s = .next t → t.mem.read a ≠ s.mem.read a →
    (tr = .step ∧ s.opcode = 0x03#8 ∧ a = s.operand) ∨ (∃ v, tr = .writeMemory a v)

/-! Memory -/

/-- 10_state.md section 1: memory is a map from addresses to bytes. Two memories in the canonical form (the model's choice,
log entry 2) that read alike are one memory. -/
def Obligations.CanonicalMemoriesThatReadAlikeAreEqual : Prop :=
  ∀ m m' : Memory, m.wf = true → m'.wf = true → (∀ a, m.read a = m'.read a) → m = m'

/-- 10_state.md sections 1 and 7: there is no state but `pc`, `acc`, `flags` and what the cells read as. Two states alike
in these answer every transaction alike, and stay alike. -/
def Obligations.NoStateIsHiddenFromTheHost : Prop :=
  ∀ (tr : Transaction) (s s' : State),
    s.pc = s'.pc → s.acc = s'.acc → s.flags = s'.flags → (∀ a, s.mem.read a = s'.mem.read a) →
      answer tr s = answer tr s' ∧
      ∃ t t' : State, transact tr s = .next t ∧ transact tr s' = .next t' ∧
        t.pc = t'.pc ∧ t.acc = t'.acc ∧ t.flags = t'.flags ∧ ∀ a, t.mem.read a = t'.mem.read a

/-- 20_memory.md section 4, the spec's inference on the accesses of one step, and 92_eei_decisions.md D7: a step depends on
no cell but its opcode's, its operand's and the one its data access names. A write to any other cell commutes with the
step. The premise `s.Inv` is the canonical form of memory (the model's choice, log entry 2). -/
def Obligations.StepCommutesWithWritesToCellsItDoesNotAccess : Prop :=
  ∀ (s : State) (a : Addr) (v : Byte), s.Inv →
    a ≠ s.pc → (s.opcode ∈ twoByteOpcodes → a ≠ s.pc + 1#8) → (s.accessesData → a ≠ s.operand) →
      ∃ t : State, step s = .next t ∧
        step { s with mem := s.mem.write a v } = .next { t with mem := t.mem.write a v }

/-- 20_memory.md section 5, the spec's inferences: a byte written by `sta` at the address of the next instruction, or by
the host at the `pc`, is what the next fetch returns. -/
def Obligations.AStoreIsSeenByTheNextFetch : Prop :=
  (∀ s : State, s.opcode = 0x03#8 → s.operand = s.pc + 2#8 →
    ∃ t : State, step s = .next t ∧ (fetch t).1 = s.acc) ∧
  (∀ (s : State) (v : Byte), ∃ t : State, transact (.writeMemory s.pc v) s = .next t ∧ (fetch t).1 = v)

/-- 20_memory.md section 4, the spec's inference on the consistency model: after any sequence of transactions, every cell
reads as the latest write to it in that sequence, or, with none, as it did before (at power-on, `mem_init`). -/
def Obligations.EveryReadReturnsTheLatestWrite : Prop :=
  ∀ (ts : List Transaction) (s : State), ∃ t : State, transactAll ts s = .next t ∧
    ∀ a, t.mem.read a = (latestWrite (storesOf ts s) a).getD (s.mem.read a)

/-! Reset and the host interface -/

/-- R190: `reset()` sets the three registers to 0, leaves memory untouched and returns nothing. -/
def Obligations.ResetZeroesTheRegistersAndKeepsMemory : Prop :=
  ∀ s : State, answer .reset s = none ∧
    transact .reset s = .next { s with pc := 0x00#8, acc := 0x00#8, flags := 0x00#8 }

/-- R34 and R35: what each operation of the interface does and returns. -/
def Obligations.HostInterfaceOperations : Prop :=
  ∀ (s : State) (a : Addr) (v : Byte),
    (transact .reset s = .next { s with pc := 0x00#8, acc := 0x00#8, flags := 0x00#8 } ∧ answer .reset s = none) ∧
    (transact .step s = step s ∧ answer .step s = none) ∧
    (transact (.readMemory a) s = .next s ∧ answer (.readMemory a) s = some (s.mem.read a)) ∧
    (answer (.writeMemory a v) s = none ∧
      ∃ t : State, transact (.writeMemory a v) s = .next t ∧ t.pc = s.pc ∧ t.acc = s.acc ∧ t.flags = s.flags ∧
        t.mem.read a = v ∧ ∀ b, b ≠ a → t.mem.read b = s.mem.read b) ∧
    (transact .observePc s = .next s ∧ answer .observePc s = some s.pc) ∧
    (transact .observeAcc s = .next s ∧ answer .observeAcc s = some s.acc) ∧
    (transact .observeFlags s = .next s ∧ answer .observeFlags s = some s.flags)

/-- 70_reset_and_hazards.md sections 1 and 2, the spec's inferences: two resets are one, a reset and a host write may be
issued in either order, and after a reset the next opcode is fetched from address 0. -/
def Obligations.ResetIsIdempotentAndEntersAtZero : Prop :=
  ∀ (s : State) (a : Addr) (v : Byte),
    transactAll [.reset, .reset] s = transactAll [.reset] s ∧
    transactAll [.reset, .writeMemory a v] s = transactAll [.writeMemory a v, .reset] s ∧
    ∃ t : State, transact .reset s = .next t ∧ (fetch t).1 = s.mem.read 0x00#8

/-- 10_state.md section 8, the spec's decision: at power-on the registers are 0 and memory is the open parameter
`mem_init`, and a reset changes nothing of that state. -/
def Obligations.PowerOnTakesAnyMemoryAndZeroRegisters : Prop :=
  ∀ memInit : Memory,
    (State.powerOn memInit).pc = 0x00#8 ∧ (State.powerOn memInit).acc = 0x00#8 ∧
    (State.powerOn memInit).flags = 0x00#8 ∧ (∀ a, (State.powerOn memInit).mem.read a = memInit.read a) ∧
    transact .reset (State.powerOn memInit) = .next (State.powerOn memInit)

/-! The invariant -/

/-- The state after reset meets the invariant: its memory lists nothing (the model's choice, log entry 1). -/
def Obligations.ResetStateMeetsTheInvariant : Prop :=
  State.reset.Inv ∧ State.reset.pc = 0x00#8 ∧ State.reset.acc = 0x00#8 ∧ State.reset.flags = 0x00#8

/-- The canonical form of memory (the model's choice, log entry 2) is kept by every step, from every state that has it. -/
def Obligations.EveryStepKeepsTheInvariant : Prop :=
  ∀ s t : State, s.Inv → step s = .next t → t.Inv

/-- 60_exceptions.md section 1 and 20_memory.md section 4: no sequence of transactions ends in an error, and each keeps the
invariant (the model's choice, log entry 2). -/
def Obligations.TransactionsNeverFailAndKeepTheInvariant : Prop :=
  ∀ (ts : List Transaction) (s : State), ∃ t : State, transactAll ts s = .next t ∧ (s.Inv → t.Inv)
end

