-- ==== Sys2Proof/Laws/State.lean ====
section
/-! SUPPORT. One lemma for each field and each update of the state. -/

namespace Sys2Proof.Machine

section
variable (s : State) (v : Byte) (a : Addr)

@[simp] theorem State.setPc_pc : (s.setPc v).pc = v := rfl
@[simp] theorem State.setPc_acc : (s.setPc v).acc = s.acc := rfl
@[simp] theorem State.setPc_flags : (s.setPc v).flags = s.flags := rfl
@[simp] theorem State.setPc_mem : (s.setPc v).mem = s.mem := rfl

@[simp] theorem State.setAcc_pc : (s.setAcc v).pc = s.pc := rfl
@[simp] theorem State.setAcc_acc : (s.setAcc v).acc = v := rfl
@[simp] theorem State.setAcc_flags : (s.setAcc v).flags = s.flags := rfl
@[simp] theorem State.setAcc_mem : (s.setAcc v).mem = s.mem := rfl

@[simp] theorem State.setFlags_pc : (s.setFlags v).pc = s.pc := rfl
@[simp] theorem State.setFlags_acc : (s.setFlags v).acc = s.acc := rfl
@[simp] theorem State.setFlags_flags : (s.setFlags v).flags = v := rfl
@[simp] theorem State.setFlags_mem : (s.setFlags v).mem = s.mem := rfl

@[simp] theorem State.memWrite_pc : (s.memWrite a v).pc = s.pc := rfl
@[simp] theorem State.memWrite_acc : (s.memWrite a v).acc = s.acc := rfl
@[simp] theorem State.memWrite_flags : (s.memWrite a v).flags = s.flags := rfl
@[simp] theorem State.memWrite_mem : (s.memWrite a v).mem = s.mem.write a v := rfl

@[simp] theorem State.memRead_eq : s.memRead a = s.mem.read a := rfl

@[simp] theorem resetRegisters_pc : (resetRegisters s).pc = 0x00#8 := rfl
@[simp] theorem resetRegisters_acc : (resetRegisters s).acc = 0x00#8 := rfl
@[simp] theorem resetRegisters_flags : (resetRegisters s).flags = 0x00#8 := rfl
@[simp] theorem resetRegisters_mem : (resetRegisters s).mem = s.mem := rfl

end

section
variable (m : Memory)

@[simp] theorem State.powerOn_pc : (State.powerOn m).pc = 0x00#8 := rfl
@[simp] theorem State.powerOn_acc : (State.powerOn m).acc = 0x00#8 := rfl
@[simp] theorem State.powerOn_flags : (State.powerOn m).flags = 0x00#8 := rfl
@[simp] theorem State.powerOn_mem : (State.powerOn m).mem = m := rfl

end

end Sys2Proof.Machine
end

