-- ==== Sys2Proof/Laws/Memory.lean ====
section
/-! SUPPORT. The laws of memory: what a read after a write gives, for every list, and that every memory operation keeps
the canonical form. -/

namespace Sys2Proof.Machine

/-! Reading after writing -/

theorem Memory.read_erase (m : Memory) (a b : Addr) :
    (m.erase a).read b = if b = a then Memory.unlisted else m.read b := by
  induction m with
  | nil => simp [Memory.erase, Memory.read]
  | cons c m ih =>
    simp only [Memory.erase] at ih
    simp only [Memory.erase, List.filter_cons, Memory.read]
    by_cases hca : c.1 = a.toNat
    · by_cases hba : b = a
      · simpa [hca, hba] using ih
      · have hne : a.toNat ≠ b.toNat := fun h => hba (BitVec.eq_of_toNat_eq h.symm)
        simpa [hca, hba, hne] using ih
    · by_cases hcb : c.1 = b.toNat
      · have hba : b ≠ a := fun h => hca (by rw [hcb, h])
        have hne : b.toNat ≠ a.toNat := fun h => hba (BitVec.eq_of_toNat_eq h)
        simp [Memory.read, hcb, hba, hne]
      · simpa [Memory.read, hca, hcb] using ih

theorem Memory.read_insertCell (m : Memory) (a b : Addr) (v : Byte) (h : ∀ d ∈ m, d.1 ≠ a.toNat) :
    (Memory.insertCell (a.toNat, v) m).read b = if b = a then v else m.read b := by
  have hab : a.toNat = b.toNat ↔ b = a := by rw [eq_comm, BitVec.toNat_inj]
  induction m with
  | nil => simp [Memory.insertCell, Memory.read, hab]
  | cons d m ih =>
    have hd : d.1 ≠ a.toNat := h d List.mem_cons_self
    have ih := ih (fun e he => h e (List.mem_cons_of_mem _ he))
    simp only [Memory.insertCell]
    split
    · simp [Memory.read, hab]
    · by_cases hba : b = a
      · subst hba
        simpa [Memory.read, hd] using ih
      · simp [Memory.read, hba, ih]

theorem Memory.erase_fresh (m : Memory) (a : Addr) : ∀ d ∈ m.erase a, d.1 ≠ a.toNat := by
  intro d hd
  simpa [Memory.erase] using (List.mem_filter.1 hd).2

/-- R15, R45: a write sets one cell and no other. It holds for every list, canonical or not. -/
@[simp] theorem Memory.read_write (m : Memory) (a b : Addr) (v : Byte) :
    (m.write a v).read b = if b = a then v else m.read b := by
  unfold Memory.write
  split
  · next hv => rw [Memory.read_erase, hv]
  · rw [Memory.read_insertCell _ _ _ _ (Memory.erase_fresh m a), Memory.read_erase]
    split <;> rfl

theorem Memory.read_write_same (m : Memory) (a : Addr) (v : Byte) : (m.write a v).read a = v := by
  simp

theorem Memory.read_write_other (m : Memory) {a b : Addr} (v : Byte) (h : b ≠ a) :
    (m.write a v).read b = m.read b := by
  simp [h]

@[simp] theorem Memory.read_nil (a : Addr) : Memory.read [] a = Memory.unlisted := rfl

/-! The canonical form -/

theorem Memory.wf_iff (m : Memory) :
    m.wf = true ↔
      m.Pairwise (fun c d => c.1 < d.1) ∧ ∀ c ∈ m, c.1 < Config.memSize ∧ c.2 ≠ Memory.unlisted := by
  simp [Memory.wf]

@[simp] theorem Memory.wf_nil : Memory.wf [] = true := rfl

theorem Memory.wf_erase {m : Memory} (h : m.wf = true) (a : Addr) : (m.erase a).wf = true := by
  rw [Memory.wf_iff] at h ⊢
  exact ⟨h.1.filter _, fun c hc => h.2 c (List.mem_of_mem_filter hc)⟩

theorem Memory.mem_insertCell {c d : Host.Cell} {m : Memory} :
    d ∈ Memory.insertCell c m ↔ d = c ∨ d ∈ m := by
  induction m with
  | nil => simp [Memory.insertCell]
  | cons e m ih =>
    simp only [Memory.insertCell]
    split
    · simp
    · simp only [List.mem_cons, ih]
      tauto

theorem Memory.wf_insertCell {m : Memory} (h : m.wf = true) {c : Host.Cell} (hc : c.1 < Config.memSize)
    (hv : c.2 ≠ Memory.unlisted) (hfresh : ∀ d ∈ m, d.1 ≠ c.1) : (Memory.insertCell c m).wf = true := by
  rw [Memory.wf_iff] at h ⊢
  refine ⟨?_, fun d hd => ?_⟩
  · obtain ⟨hp, -⟩ := h
    induction m with
    | nil => simp [Memory.insertCell]
    | cons e m ih =>
      rw [List.pairwise_cons] at hp
      simp only [Memory.insertCell]
      split
      · next hlt =>
        refine List.pairwise_cons.2 ⟨fun d hd => ?_, List.pairwise_cons.2 hp⟩
        rcases List.mem_cons.1 hd with rfl | hd
        · exact hlt
        · exact hlt.trans (hp.1 d hd)
      · next hge =>
        refine List.pairwise_cons.2 ⟨fun d hd => ?_, ih (fun d hd => hfresh d (List.mem_cons_of_mem _ hd)) hp.2⟩
        rcases Memory.mem_insertCell.1 hd with rfl | hd
        · exact lt_of_le_of_ne (not_lt.1 hge) (hfresh e List.mem_cons_self)
        · exact hp.1 d hd
  · rcases Memory.mem_insertCell.1 hd with rfl | hd
    · exact ⟨hc, hv⟩
    · exact h.2 d hd

/-- Every write keeps the canonical form. -/
theorem Memory.wf_write {m : Memory} (h : m.wf = true) (a : Addr) (v : Byte) : (m.write a v).wf = true := by
  unfold Memory.write
  split
  · exact Memory.wf_erase h a
  · next hv =>
    exact Memory.wf_insertCell (Memory.wf_erase h a) a.isLt hv (Memory.erase_fresh m a)

end Sys2Proof.Machine
end

