-- ==== Sys2Proof/Laws/Ops.lean ====
section
/-! SUPPORT. For each shared operation, once, everything it does. -/

namespace Sys2Proof.Machine

/-! The fetch unit -/

/-- R81, C6: the two branches of the fetch unit are one wrapping increment. -/
@[simp] theorem nextPc_eq_add_one (pc : Byte) : nextPc pc = pc + 1#8 := by
  unfold nextPc
  split
  · next h => subst h; rfl
  · rfl

@[simp] theorem fetch_fst (s : State) : (fetch s).1 = s.mem.read s.pc := rfl

@[simp] theorem fetch_snd (s : State) : (fetch s).2 = s.setPc (s.pc + 1#8) := by
  simp [fetch]

/-- The fetches of an instruction, from the format its opcode byte settles. -/
theorem fetchInstr_b1 {s : State} {i : Instr} (h : dispatchOpcode (s.mem.read s.pc) = .b1 i) :
    fetchInstr s = (i, s.setPc (s.pc + 1#8)) := by
  simp [fetchInstr, h]

theorem fetchInstr_b2 {s : State} {k : Byte → Instr} (h : dispatchOpcode (s.mem.read s.pc) = .b2 k) :
    fetchInstr s = (k (s.mem.read (s.pc + 1#8)), s.setPc (s.pc + 2#8)) := by
  simp [fetchInstr, h, State.setPc, BitVec.add_assoc]

/-! Flags -/

@[simp] theorem zFlagOf_writeZ (f : Byte) (z : Bool) : zFlagOf (writeZ f z) = z := by
  unfold zFlagOf writeZ
  rw [BitVec.getLsbD_append]
  simp

theorem writeZ_getLsbD_of_pos (f : Byte) (z : Bool) {k : Nat} (h : 1 ≤ k) :
    (writeZ f z).getLsbD k = f.getLsbD k := by
  unfold writeZ
  have hk : ¬ k < 1 := by omega
  rw [BitVec.getLsbD_append, if_neg hk, BitVec.getLsbD_extractLsb', show 1 + (k - 1) = k by omega]
  by_cases h7 : k - 1 < 7
  · simp [h7]
  · simp [h7, BitVec.getLsbD_of_ge f k (by omega)]

@[simp] theorem State.setZ_pc (s : State) (z : Bool) : (s.setZ z).pc = s.pc := rfl
@[simp] theorem State.setZ_acc (s : State) (z : Bool) : (s.setZ z).acc = s.acc := rfl
@[simp] theorem State.setZ_flags (s : State) (z : Bool) : (s.setZ z).flags = writeZ s.flags z := rfl
@[simp] theorem State.setZ_mem (s : State) (z : Bool) : (s.setZ z).mem = s.mem := rfl

/-! Operands and the ALU -/

@[simp] theorem immOperand_eq (b : Byte) : immOperand b = b := rfl
@[simp] theorem addrOperand_eq (s : State) (a : Addr) : addrOperand s a = s.mem.read a := rfl
@[simp] theorem aluAdd_eq (a b : Byte) : aluAdd a b = a + b := rfl
@[simp] theorem aluSub_eq (a b : Byte) : aluSub a b = a - b := rfl
@[simp] theorem aluEqual_eq (a b : Byte) : aluEqual a b = (a == b) := rfl
@[simp] theorem zeroOf_eq (r : Byte) : zeroOf r = (r == 0x00#8) := rfl

@[simp] theorem writeResult_pc (s : State) (r : Byte) : (writeResult s r).pc = s.pc := rfl
@[simp] theorem writeResult_acc (s : State) (r : Byte) : (writeResult s r).acc = r := rfl
@[simp] theorem writeResult_flags (s : State) (r : Byte) :
    (writeResult s r).flags = writeZ s.flags (r == 0x00#8) := rfl
@[simp] theorem writeResult_mem (s : State) (r : Byte) : (writeResult s r).mem = s.mem := rfl

/-! Jumps -/

@[simp] theorem jumpTo_eq (s : State) (t : Addr) : jumpTo s t = s.setPc t := rfl

/-- A conditional jump writes the `pc` only, and not taken it writes the value the `pc` has. -/
@[simp] theorem jumpIf_eq (b : Bool) (s : State) (t : Addr) : jumpIf b s t = s.setPc (if b then t else s.pc) := by
  cases b <;> rfl

/-! The host's accesses -/

@[simp] theorem hostRead_eq (a : Addr) (s : State) : hostRead a s = s.mem.read a := rfl
@[simp] theorem hostWrite_eq (a : Addr) (v : Byte) (s : State) : hostWrite a v s = s.memWrite a v := rfl

end Sys2Proof.Machine
end

