-- ==== Sys2Proof/Laws/PerInstr.lean ====
section
/-! SUPPORT. Statements about each instruction as syntax, one lemma for each constructor. -/

namespace Sys2Proof.Laws.EncodedLength

/-- R62: an instruction has one or two bytes, as many as its encoding has. -/
def Statement (i : Instr) : Prop :=
  (encode i).length = i.length ∧ (i.length = 1 ∨ i.length = 2)

theorem ldi (imm : Byte) : Statement (.ldi imm) := ⟨rfl, .inr rfl⟩
theorem lda (addr : Addr) : Statement (.lda addr) := ⟨rfl, .inr rfl⟩
theorem sta (addr : Addr) : Statement (.sta addr) := ⟨rfl, .inr rfl⟩
theorem ldf : Statement .ldf := ⟨rfl, .inl rfl⟩
theorem stf : Statement .stf := ⟨rfl, .inl rfl⟩
theorem cmp (imm : Byte) : Statement (.cmp imm) := ⟨rfl, .inr rfl⟩
theorem adi (imm : Byte) : Statement (.adi imm) := ⟨rfl, .inr rfl⟩
theorem add (addr : Addr) : Statement (.add addr) := ⟨rfl, .inr rfl⟩
theorem sui (imm : Byte) : Statement (.sui imm) := ⟨rfl, .inr rfl⟩
theorem sub (addr : Addr) : Statement (.sub addr) := ⟨rfl, .inr rfl⟩
theorem ldp : Statement .ldp := ⟨rfl, .inl rfl⟩
theorem jmi (imm : Addr) : Statement (.jmi imm) := ⟨rfl, .inr rfl⟩
theorem jmp (addr : Addr) : Statement (.jmp addr) := ⟨rfl, .inr rfl⟩
theorem jiz (imm : Addr) : Statement (.jiz imm) := ⟨rfl, .inr rfl⟩
theorem jmz (addr : Addr) : Statement (.jmz addr) := ⟨rfl, .inr rfl⟩
theorem jin (imm : Addr) : Statement (.jin imm) := ⟨rfl, .inr rfl⟩
theorem jmn (addr : Addr) : Statement (.jmn addr) := ⟨rfl, .inr rfl⟩
theorem unknown (opcode : Byte) : Statement (.unknown opcode) := ⟨rfl, .inl rfl⟩

end Sys2Proof.Laws.EncodedLength
end

