-- ==== Sys2Proof/Laws/Step.lean ====
section
/-! SUPPORT. What the opcode byte settles, said once, and the invariant under each operation that writes memory. -/

namespace Sys2Proof.Machine

/-- R66, R68: the opcode byte is one of the table's, with its instruction, or unknown. -/
theorem dispatchOpcode_cases (op : Byte) :
    (op = 0x01#8 ∧ dispatchOpcode op = .b2 .ldi) ∨ (op = 0x02#8 ∧ dispatchOpcode op = .b2 .lda) ∨
    (op = 0x03#8 ∧ dispatchOpcode op = .b2 .sta) ∨ (op = 0x04#8 ∧ dispatchOpcode op = .b1 .ldf) ∨
    (op = 0x05#8 ∧ dispatchOpcode op = .b1 .stf) ∨ (op = 0x10#8 ∧ dispatchOpcode op = .b2 .cmp) ∨
    (op = 0x11#8 ∧ dispatchOpcode op = .b2 .adi) ∨ (op = 0x12#8 ∧ dispatchOpcode op = .b2 .add) ∨
    (op = 0x13#8 ∧ dispatchOpcode op = .b2 .sui) ∨ (op = 0x14#8 ∧ dispatchOpcode op = .b2 .sub) ∨
    (op = 0x20#8 ∧ dispatchOpcode op = .b1 .ldp) ∨ (op = 0x21#8 ∧ dispatchOpcode op = .b2 .jmi) ∨
    (op = 0x22#8 ∧ dispatchOpcode op = .b2 .jmp) ∨ (op = 0x23#8 ∧ dispatchOpcode op = .b2 .jiz) ∨
    (op = 0x24#8 ∧ dispatchOpcode op = .b2 .jmz) ∨ (op = 0x25#8 ∧ dispatchOpcode op = .b2 .jin) ∨
    (op = 0x26#8 ∧ dispatchOpcode op = .b2 .jmn) ∨
    (isUnknownOpcode op = true ∧ dispatchOpcode op = .b1 (.unknown op)) := by
  have key : ∀ op : Byte,
      op ∈ [0x01#8, 0x02#8, 0x03#8, 0x04#8, 0x05#8, 0x10#8, 0x11#8, 0x12#8, 0x13#8, 0x14#8, 0x20#8, 0x21#8, 0x22#8,
        0x23#8, 0x24#8, 0x25#8, 0x26#8] ∨ isUnknownOpcode op = true := by decide
  rcases key op with h | h
  · simp only [List.mem_cons, List.not_mem_nil, or_false] at h
    rcases h with rfl | rfl | rfl | rfl | rfl | rfl | rfl | rfl | rfl | rfl | rfl | rfl | rfl | rfl | rfl | rfl | rfl <;>
      simp [dispatchOpcode]
  · have : dispatchOpcode op = .b1 (.unknown op) := by
      unfold dispatchOpcode
      split <;> first | rfl | exact absurd h (by decide)
    iterate 17 right
    exact ⟨h, this⟩

/-! Runs -/

theorem run_succ_of_next {n : Nat} {s t : State} (h : step s = .next t) :
    Host.Core.run Sys2Proof.core (n + 1) s = Host.Core.run Sys2Proof.core n t := by
  have h' : Sys2Proof.core.step s = .next t := h
  simp only [Host.Core.run, h']

/-! The invariant -/

theorem State.inv_memWrite {s : State} (h : s.Inv) (a : Addr) (v : Byte) : (s.memWrite a v).Inv :=
  Memory.wf_write h a v

theorem writeBytes_inv (bs : List Byte) : ∀ (a : Addr) {s : State}, s.Inv → (writeBytes a bs s).Inv := by
  induction bs with
  | nil => exact fun _ _ h => h
  | cons b bs ih => exact fun a s h => ih _ (State.inv_memWrite h a b)

/-- Placing an instruction for the next step keeps the invariant. -/
theorem State.inv_withFetchWord {s : State} (h : s.Inv) (nbits w : Nat) : (s.withFetchWord nbits w).Inv :=
  writeBytes_inv _ _ h

theorem transactAll_append (ts us : List Transaction) : ∀ (s t : State), transactAll ts s = .next t →
    transactAll (ts ++ us) s = transactAll us t := by
  induction ts with
  | nil =>
    intro s t h
    cases h
    rfl
  | cons tr ts ih =>
    intro s t h
    simp only [transactAll, List.cons_append] at h ⊢
    split at h
    · next => exact ih _ _ h
    · cases h
    · cases h

end Sys2Proof.Machine
end

