-- ==== Sys2Proof/Tests/Slice0.lean ====
section
/-! SUPPORT. Tests. An expected value is from 95_test_vectors.md (the vector's id stands in the docstring) or from the
rule named there. A theorem whose name begins test_witness_ shows a state and operands that meet the hypotheses of the
statement it names. -/

namespace Sys2Proof.Tests

open Sys2Proof.Machine

/-- A small state. -/
def st (pc acc flags : Byte) (mem : Memory) : State := { pc := pc, acc := acc, flags := flags, mem := mem }

/-- Whether one step from a state answers a next state, and which. -/
def stepsTo (s t : State) : Bool :=
  match step s with
  | .next t' => decide (t' = t)
  | .fault _ => false
  | .refused _ => false

/-- Whether a transaction from a state answers a next state, and which. -/
def transactsTo (tr : Transaction) (s t : State) : Bool :=
  match transact tr s with
  | .next t' => decide (t' = t)
  | .fault _ => false
  | .refused _ => false

/-- The instruction at the head of a byte sequence, and how many bytes are left after it. -/
def decodesTo (bytes : List Byte) (i : Instr) (left : Nat) : Bool :=
  match decode bytes with
  | .ok (j, rest) => decide (j = i) && decide (rest.length = left)
  | .error _ => false

/-- Whether the decoder rejects a byte sequence, and why. -/
def rejectedAs (bytes : List Byte) (r : DecodeReject) : Bool :=
  match decode bytes with
  | .ok _ => false
  | .error e => decide (e = r)

/-! WellFormed: an `unknown` whose byte is an opcode of the table is refused, and the edges of the ranges of R68 -/

theorem test_wellFormed_refuses_unknown_of_ldi : (Instr.unknown 0x01#8).wellFormed = false := by decide
theorem test_wellFormed_refuses_unknown_of_jmn : (Instr.unknown 0x26#8).wellFormed = false := by decide
theorem test_wellFormed_unknown_range_edges :
    [0x00#8, 0x06#8, 0x0F#8, 0x15#8, 0x1F#8, 0x27#8, 0xFF#8].all (fun b => (Instr.unknown b).wellFormed) = true ∧
      [0x01#8, 0x05#8, 0x10#8, 0x14#8, 0x20#8, 0x26#8].any (fun b => (Instr.unknown b).wellFormed) = false := by decide

/-! Decoding: each row's word, bit by bit from the "encoding" column of the opcode table, operand 1010_0110 -/

theorem test_decode_ldi : decodesTo [0b00000001#8, 0b10100110#8] (.ldi 0xA6#8) 0 = true := by decide
theorem test_decode_lda : decodesTo [0b00000010#8, 0b10100110#8] (.lda 0xA6#8) 0 = true := by decide
theorem test_decode_sta : decodesTo [0b00000011#8, 0b10100110#8] (.sta 0xA6#8) 0 = true := by decide
theorem test_decode_ldf : decodesTo [0b00000100#8, 0b10100110#8] .ldf 1 = true := by decide
theorem test_decode_stf : decodesTo [0b00000101#8, 0b10100110#8] .stf 1 = true := by decide
theorem test_decode_cmp : decodesTo [0b00010000#8, 0b10100110#8] (.cmp 0xA6#8) 0 = true := by decide
theorem test_decode_adi : decodesTo [0b00010001#8, 0b10100110#8] (.adi 0xA6#8) 0 = true := by decide
theorem test_decode_add : decodesTo [0b00010010#8, 0b10100110#8] (.add 0xA6#8) 0 = true := by decide
theorem test_decode_sui : decodesTo [0b00010011#8, 0b10100110#8] (.sui 0xA6#8) 0 = true := by decide
theorem test_decode_sub : decodesTo [0b00010100#8, 0b10100110#8] (.sub 0xA6#8) 0 = true := by decide
theorem test_decode_ldp : decodesTo [0b00100000#8, 0b10100110#8] .ldp 1 = true := by decide
theorem test_decode_jmi : decodesTo [0b00100001#8, 0b10100110#8] (.jmi 0xA6#8) 0 = true := by decide
theorem test_decode_jmp : decodesTo [0b00100010#8, 0b10100110#8] (.jmp 0xA6#8) 0 = true := by decide
theorem test_decode_jiz : decodesTo [0b00100011#8, 0b10100110#8] (.jiz 0xA6#8) 0 = true := by decide
theorem test_decode_jmz : decodesTo [0b00100100#8, 0b10100110#8] (.jmz 0xA6#8) 0 = true := by decide
theorem test_decode_jin : decodesTo [0b00100101#8, 0b10100110#8] (.jin 0xA6#8) 0 = true := by decide
theorem test_decode_jmn : decodesTo [0b00100110#8, 0b10100110#8] (.jmn 0xA6#8) 0 = true := by decide
/-- R68: the low and the high edge of the last range. -/
theorem test_decode_unknown :
    decodesTo [0b00100111#8, 0b10100110#8] (.unknown 0x27#8) 1 = true ∧
      decodesTo [0b11111111#8] (.unknown 0xFF#8) 0 = true := by decide
theorem test_decode_rejects_only_short_streams :
    rejectedAs [] .noOpcode = true ∧ rejectedAs [0x01#8] .noOperand = true := by decide
/-- The operand stands in bits 15:8 of a table word, and a word whose row gives the opcode's bits only has operand 0. -/
theorem test_decodeTableWord :
    decodeTableWord 16 0xA601 = some (.ldi 0xA6#8) ∧ decodeTableWord 8 0xA601 = some (.ldi 0x00#8) ∧
      decodeTableWord 8 0x04 = some .ldf := by decide

/-! Steps. Each is also the witness of the statement about its instruction: the opcode stands at the `pc`. -/

/-- L1. -/
theorem test_ldi : (st 0x00#8 0x33#8 0x00#8 [(0, 0x01#8), (1, 0x05#8)]).opcode = 0x01#8 ∧
    stepsTo (st 0x00#8 0x33#8 0x00#8 [(0, 0x01#8), (1, 0x05#8)])
      (st 0x02#8 0x05#8 0x00#8 [(0, 0x01#8), (1, 0x05#8)]) = true := by decide
/-- F7: the operand of an opcode at 255 is at 0. -/
theorem test_ldi_wraps : stepsTo (st 0xFF#8 0x33#8 0x80#8 [(0, 0x9C#8), (255, 0x01#8)])
    (st 0x01#8 0x9C#8 0x80#8 [(0, 0x9C#8), (255, 0x01#8)]) = true := by decide
/-- L3. -/
theorem test_lda : (st 0x10#8 0x00#8 0x00#8 [(0x10, 0x02#8), (0x11, 0x80#8), (0x80, 0x7F#8)]).opcode = 0x02#8 ∧
    stepsTo (st 0x10#8 0x00#8 0x00#8 [(0x10, 0x02#8), (0x11, 0x80#8), (0x80, 0x7F#8)])
      (st 0x12#8 0x7F#8 0x00#8 [(0x10, 0x02#8), (0x11, 0x80#8), (0x80, 0x7F#8)]) = true := by decide
/-- L5: `lda` of its own opcode cell. -/
theorem test_lda_own_opcode : stepsTo (st 0x10#8 0x00#8 0x00#8 [(0x10, 0x02#8), (0x11, 0x10#8)])
    (st 0x12#8 0x02#8 0x00#8 [(0x10, 0x02#8), (0x11, 0x10#8)]) = true := by decide
/-- L7. -/
theorem test_sta : (st 0x00#8 0x99#8 0x00#8 [(0, 0x03#8), (1, 0x40#8)]).opcode = 0x03#8 ∧
    stepsTo (st 0x00#8 0x99#8 0x00#8 [(0, 0x03#8), (1, 0x40#8)])
      (st 0x02#8 0x99#8 0x00#8 [(0, 0x03#8), (1, 0x40#8), (0x40, 0x99#8)]) = true := by decide
/-- L8: `sta` overwrites its own opcode. -/
theorem test_sta_own_opcode : stepsTo (st 0x30#8 0x77#8 0x00#8 [(0x30, 0x03#8), (0x31, 0x30#8)])
    (st 0x32#8 0x77#8 0x00#8 [(0x30, 0x77#8), (0x31, 0x30#8)]) = true := by decide
/-- L10. -/
theorem test_ldf : (st 0x20#8 0x00#8 0xA5#8 [(0x20, 0x04#8)]).opcode = 0x04#8 ∧
    stepsTo (st 0x20#8 0x00#8 0xA5#8 [(0x20, 0x04#8)]) (st 0x21#8 0xA5#8 0xA5#8 [(0x20, 0x04#8)]) = true := by decide
/-- S9. -/
theorem test_ldf_wraps : stepsTo (st 0xFF#8 0x00#8 0x81#8 [(255, 0x04#8)])
    (st 0x00#8 0x81#8 0x81#8 [(255, 0x04#8)]) = true := by decide
/-- L11. -/
theorem test_stf : (st 0x20#8 0xFE#8 0x00#8 [(0x20, 0x05#8)]).opcode = 0x05#8 ∧
    stepsTo (st 0x20#8 0xFE#8 0x00#8 [(0x20, 0x05#8)]) (st 0x21#8 0xFE#8 0xFE#8 [(0x20, 0x05#8)]) = true := by decide
/-- L12: Z is `acc[0]`, not a zero test. -/
theorem test_stf_even : stepsTo (st 0x20#8 0x02#8 0x01#8 [(0x20, 0x05#8)])
    (st 0x21#8 0x02#8 0x02#8 [(0x20, 0x05#8)]) = true := by decide
/-- A1. -/
theorem test_cmp : (st 0x00#8 0x07#8 0xFE#8 [(0, 0x10#8), (1, 0x07#8)]).opcode = 0x10#8 ∧
    stepsTo (st 0x00#8 0x07#8 0xFE#8 [(0, 0x10#8), (1, 0x07#8)])
      (st 0x02#8 0x07#8 0xFF#8 [(0, 0x10#8), (1, 0x07#8)]) = true := by decide
/-- A2. -/
theorem test_cmp_unequal : stepsTo (st 0x00#8 0x07#8 0xFF#8 [(0, 0x10#8), (1, 0x08#8)])
    (st 0x02#8 0x07#8 0xFE#8 [(0, 0x10#8), (1, 0x08#8)]) = true := by decide
/-- A4. -/
theorem test_adi : (st 0x00#8 0xFF#8 0x80#8 [(0, 0x11#8), (1, 0x01#8)]).opcode = 0x11#8 ∧
    stepsTo (st 0x00#8 0xFF#8 0x80#8 [(0, 0x11#8), (1, 0x01#8)])
      (st 0x02#8 0x00#8 0x81#8 [(0, 0x11#8), (1, 0x01#8)]) = true := by decide
/-- A5. -/
theorem test_adi_clears_z : stepsTo (st 0x00#8 0x7F#8 0x01#8 [(0, 0x11#8), (1, 0x01#8)])
    (st 0x02#8 0x80#8 0x00#8 [(0, 0x11#8), (1, 0x01#8)]) = true := by decide
/-- A8. -/
theorem test_add : (st 0x40#8 0x80#8 0x00#8 [(0x40, 0x12#8), (0x41, 0x50#8), (0x50, 0x80#8)]).opcode = 0x12#8 ∧
    stepsTo (st 0x40#8 0x80#8 0x00#8 [(0x40, 0x12#8), (0x41, 0x50#8), (0x50, 0x80#8)])
      (st 0x42#8 0x00#8 0x01#8 [(0x40, 0x12#8), (0x41, 0x50#8), (0x50, 0x80#8)]) = true := by decide
/-- A7: `add` of its own operand cell. -/
theorem test_add_own_operand : stepsTo (st 0x40#8 0x01#8 0x00#8 [(0x40, 0x12#8), (0x41, 0x41#8)])
    (st 0x42#8 0x42#8 0x00#8 [(0x40, 0x12#8), (0x41, 0x41#8)]) = true := by decide
/-- A9: `sui` adds. -/
theorem test_sui : (st 0x00#8 0x05#8 0x00#8 [(0, 0x13#8), (1, 0x01#8)]).opcode = 0x13#8 ∧
    stepsTo (st 0x00#8 0x05#8 0x00#8 [(0, 0x13#8), (1, 0x01#8)])
      (st 0x02#8 0x06#8 0x00#8 [(0, 0x13#8), (1, 0x01#8)]) = true := by decide
/-- A11. -/
theorem test_sui_to_zero : stepsTo (st 0x00#8 0x05#8 0x00#8 [(0, 0x13#8), (1, 0xFB#8)])
    (st 0x02#8 0x00#8 0x01#8 [(0, 0x13#8), (1, 0xFB#8)]) = true := by decide
/-- A12. -/
theorem test_sub : (st 0x00#8 0x00#8 0x00#8 [(0, 0x14#8), (1, 0x50#8), (0x50, 0x01#8)]).opcode = 0x14#8 ∧
    stepsTo (st 0x00#8 0x00#8 0x00#8 [(0, 0x14#8), (1, 0x50#8), (0x50, 0x01#8)])
      (st 0x02#8 0xFF#8 0x00#8 [(0, 0x14#8), (1, 0x50#8), (0x50, 0x01#8)]) = true := by decide
/-- A14. -/
theorem test_sub_clears_z : stepsTo (st 0x00#8 0x80#8 0x01#8 [(0, 0x14#8), (1, 0x50#8), (0x50, 0x01#8)])
    (st 0x02#8 0x7F#8 0x00#8 [(0, 0x14#8), (1, 0x50#8), (0x50, 0x01#8)]) = true := by decide
/-- J1. -/
theorem test_ldp : (st 0x02#8 0x00#8 0x00#8 [(2, 0x20#8)]).opcode = 0x20#8 ∧
    stepsTo (st 0x02#8 0x00#8 0x00#8 [(2, 0x20#8)]) (st 0x03#8 0x03#8 0x00#8 [(2, 0x20#8)]) = true := by decide
/-- J2. -/
theorem test_ldp_wraps : stepsTo (st 0xFF#8 0x55#8 0x00#8 [(255, 0x20#8)])
    (st 0x00#8 0x00#8 0x00#8 [(255, 0x20#8)]) = true := by decide
/-- J4. -/
theorem test_jmi : (st 0x00#8 0x00#8 0x00#8 [(0, 0x21#8), (1, 0xFF#8)]).opcode = 0x21#8 ∧
    stepsTo (st 0x00#8 0x00#8 0x00#8 [(0, 0x21#8), (1, 0xFF#8)])
      (st 0xFF#8 0x00#8 0x00#8 [(0, 0x21#8), (1, 0xFF#8)]) = true := by decide
/-- J5. -/
theorem test_jmi_wraps : stepsTo (st 0xFF#8 0x00#8 0x00#8 [(0, 0x80#8), (255, 0x21#8)])
    (st 0x80#8 0x00#8 0x00#8 [(0, 0x80#8), (255, 0x21#8)]) = true := by decide
/-- J6. -/
theorem test_jmp : (st 0x00#8 0x00#8 0x00#8 [(0, 0x22#8), (1, 0x10#8), (0x10, 0x40#8)]).opcode = 0x22#8 ∧
    stepsTo (st 0x00#8 0x00#8 0x00#8 [(0, 0x22#8), (1, 0x10#8), (0x10, 0x40#8)])
      (st 0x40#8 0x00#8 0x00#8 [(0, 0x22#8), (1, 0x10#8), (0x10, 0x40#8)]) = true := by decide
/-- J7: `jmp` through its own operand cell. -/
theorem test_jmp_own_operand : stepsTo (st 0x60#8 0x00#8 0x00#8 [(0x60, 0x22#8), (0x61, 0x61#8)])
    (st 0x61#8 0x00#8 0x00#8 [(0x60, 0x22#8), (0x61, 0x61#8)]) = true := by decide
/-- J8. -/
theorem test_jiz_taken : (st 0x00#8 0x00#8 0xFF#8 [(0, 0x23#8), (1, 0x40#8)]).opcode = 0x23#8 ∧
    stepsTo (st 0x00#8 0x00#8 0xFF#8 [(0, 0x23#8), (1, 0x40#8)])
      (st 0x40#8 0x00#8 0xFF#8 [(0, 0x23#8), (1, 0x40#8)]) = true := by decide
/-- J9. -/
theorem test_jiz_not_taken : (st 0xFE#8 0x00#8 0x00#8 [(0xFE, 0x23#8), (0xFF, 0x40#8)]).opcode = 0x23#8 ∧
    stepsTo (st 0xFE#8 0x00#8 0x00#8 [(0xFE, 0x23#8), (0xFF, 0x40#8)])
      (st 0x00#8 0x00#8 0x00#8 [(0xFE, 0x23#8), (0xFF, 0x40#8)]) = true := by decide
/-- J11. -/
theorem test_jmz_taken : (st 0x0C#8 0x00#8 0x01#8 [(0x0C, 0x24#8), (0x0D, 0x0F#8), (0x0F, 0x11#8)]).opcode = 0x24#8 ∧
    stepsTo (st 0x0C#8 0x00#8 0x01#8 [(0x0C, 0x24#8), (0x0D, 0x0F#8), (0x0F, 0x11#8)])
      (st 0x11#8 0x00#8 0x01#8 [(0x0C, 0x24#8), (0x0D, 0x0F#8), (0x0F, 0x11#8)]) = true := by decide
/-- J12. -/
theorem test_jmz_not_taken :
    (st 0x0C#8 0x00#8 0xFE#8 [(0x0C, 0x24#8), (0x0D, 0x0F#8), (0x0F, 0x11#8)]).opcode = 0x24#8 ∧
    stepsTo (st 0x0C#8 0x00#8 0xFE#8 [(0x0C, 0x24#8), (0x0D, 0x0F#8), (0x0F, 0x11#8)])
      (st 0x0E#8 0x00#8 0xFE#8 [(0x0C, 0x24#8), (0x0D, 0x0F#8), (0x0F, 0x11#8)]) = true := by decide
/-- J13. -/
theorem test_jin_taken : (st 0x06#8 0x00#8 0xFE#8 [(6, 0x25#8), (7, 0x02#8)]).opcode = 0x25#8 ∧
    stepsTo (st 0x06#8 0x00#8 0xFE#8 [(6, 0x25#8), (7, 0x02#8)])
      (st 0x02#8 0x00#8 0xFE#8 [(6, 0x25#8), (7, 0x02#8)]) = true := by decide
/-- J14. -/
theorem test_jin_not_taken : (st 0x06#8 0x00#8 0x01#8 [(6, 0x25#8), (7, 0x02#8)]).opcode = 0x25#8 ∧
    stepsTo (st 0x06#8 0x00#8 0x01#8 [(6, 0x25#8), (7, 0x02#8)])
      (st 0x08#8 0x00#8 0x01#8 [(6, 0x25#8), (7, 0x02#8)]) = true := by decide
/-- J15. -/
theorem test_jmn_taken : (st 0x00#8 0x00#8 0x00#8 [(0, 0x26#8), (1, 0x10#8), (0x10, 0x80#8)]).opcode = 0x26#8 ∧
    stepsTo (st 0x00#8 0x00#8 0x00#8 [(0, 0x26#8), (1, 0x10#8), (0x10, 0x80#8)])
      (st 0x80#8 0x00#8 0x00#8 [(0, 0x26#8), (1, 0x10#8), (0x10, 0x80#8)]) = true := by decide
/-- J16. -/
theorem test_jmn_not_taken : (st 0xFF#8 0x00#8 0x01#8 [(0, 0x10#8), (0x10, 0x80#8), (255, 0x26#8)]).opcode = 0x26#8 ∧
    stepsTo (st 0xFF#8 0x00#8 0x01#8 [(0, 0x10#8), (0x10, 0x80#8), (255, 0x26#8)])
      (st 0x01#8 0x00#8 0x01#8 [(0, 0x10#8), (0x10, 0x80#8), (255, 0x26#8)]) = true := by decide
/-- S10. -/
theorem test_unknown : (st 0x10#8 0x12#8 0x34#8 [(0x10, 0xFF#8)]).opcode = 0xFF#8 ∧
    stepsTo (st 0x10#8 0x12#8 0x34#8 [(0x10, 0xFF#8)]) (st 0x11#8 0x12#8 0x34#8 [(0x10, 0xFF#8)]) = true := by decide
/-- F1: 0x00, which the list does not name. -/
theorem test_unknown_zero : stepsTo (st 0x10#8 0x12#8 0x34#8 []) (st 0x11#8 0x12#8 0x34#8 []) = true := by decide

/-! Memory, reset and the host interface -/

/-- R15: writing what an unlisted cell reads as leaves no entry, and the list stays in rising order. -/
theorem test_memory_write_canonical :
    Memory.write [(3, 0x07#8)] 0x03#8 0x00#8 = [] ∧
      Memory.write [(3, 0x07#8), (9, 0x01#8)] 0x05#8 0x02#8 = [(3, 0x07#8), (5, 0x02#8), (9, 0x01#8)] := by decide
/-- Ill-formed memories: out of order, a repeated address, an entry equal to an unlisted cell, no such cell. -/
theorem test_memory_wf_refuses :
    Memory.wf [(9, 0x01#8), (3, 0x01#8)] = false ∧ Memory.wf [(3, 0x01#8), (3, 0x02#8)] = false ∧
      Memory.wf [(3, 0x00#8)] = false ∧ Memory.wf [(256, 0x01#8)] = false := by decide
/-- H1. -/
theorem test_reset : transactsTo .reset (st 0x37#8 0x9A#8 0xFF#8 [(0, 0xAB#8)])
    (st 0x00#8 0x00#8 0x00#8 [(0, 0xAB#8)]) = true := by decide
/-- H3 and H4: a host write is seen by the next fetch. -/
theorem test_host_write : transactsTo (.writeMemory 0x05#8 0x20#8) (st 0x05#8 0x01#8 0x01#8 [])
      (st 0x05#8 0x01#8 0x01#8 [(5, 0x20#8)]) = true ∧
    stepsTo (st 0x05#8 0x01#8 0x01#8 [(5, 0x20#8)]) (st 0x06#8 0x06#8 0x01#8 [(5, 0x20#8)]) = true := by decide
/-- H5. -/
theorem test_host_read : answer (.readMemory 0x80#8) (st 0x00#8 0x00#8 0x00#8 [(0x80, 0x3C#8)]) = some 0x3C#8 := by
  decide
/-- `withFetchWord` places the word's own bytes at the `pc`, 255 being followed by 0, and the next step runs it. -/
theorem test_withFetchWord :
    (st 0xFF#8 0x00#8 0x00#8 []).withFetchWord 16 0x4221 = st 0xFF#8 0x00#8 0x00#8 [(0, 0x42#8), (255, 0x21#8)] ∧
      stepsTo (State.reset.withFetchWord 16 0x4221) (st 0x42#8 0x00#8 0x00#8 [(0, 0x21#8), (1, 0x42#8)]) = true ∧
      State.reset.withFetchWord 16 0x4204 = st 0x00#8 0x00#8 0x00#8 [(0, 0x04#8)] := by decide

/-! Witnesses of the hypotheses of the other statements -/

theorem test_witness_DecodingAnEncodedInstructionGivesItBack :
    (Instr.unknown 0xFF#8).wellFormed = true ∧ (Instr.jmn 0x00#8).wellFormed = true := by decide
theorem test_witness_EncodingADecodedInstructionGivesItsBytes :
    decode [0x14#8, 0x0F#8, 0x03#8] = .ok (.sub 0x0F#8, [0x03#8]) := rfl
theorem test_witness_LengthDependsOnOpcodeAlone :
    (decode [0x26#8, 0x05#8] = .ok (.jmn 0x05#8, []) ∧ 0x26#8 ∈ twoByteOpcodes) ∧
      (decode [0x27#8, 0x05#8] = .ok (.unknown 0x27#8, [0x05#8]) ∧ 0x27#8 ∉ twoByteOpcodes) :=
  ⟨⟨rfl, by decide⟩, rfl, by decide⟩
theorem test_witness_StepRunsTheDecodedInstruction :
    decode [(st 0xFF#8 0x00#8 0x00#8 [(0, 0x9C#8), (255, 0x01#8)]).opcode,
      (st 0xFF#8 0x00#8 0x00#8 [(0, 0x9C#8), (255, 0x01#8)]).operand] = .ok (.ldi 0x9C#8, []) := rfl
theorem test_witness_UnknownOpcodeOnlyAdvancesPc :
    isUnknownOpcode (st 0x10#8 0x12#8 0x34#8 [(0x10, 0x15#8)]).opcode = true := by decide
theorem test_witness_EveryRunOfStepsIsEventuallyPeriodic : (st 0x00#8 0x00#8 0x00#8 [(0, 0x21#8)]).Inv := by decide
/-- J17. -/
theorem test_witness_SelfJumpParksForever :
    (st 0x08#8 0x00#8 0x00#8 [(8, 0x21#8), (9, 0x08#8)]).opcode = 0x21#8 ∧
      (st 0x08#8 0x00#8 0x00#8 [(8, 0x21#8), (9, 0x08#8)]).operand = 0x08#8 := by decide
theorem test_witness_BranchReadsOnlyTheZeroFlag :
    (0xFE#8 : Byte).getLsbD 0 = (st 0x00#8 0x00#8 0x00#8 []).flags.getLsbD 0 ∧
      (st 0x00#8 0x00#8 0xFE#8 []).flags = 0xFE#8 ∧ (st 0x00#8 0x00#8 0x01#8 []).flags = 0x01#8 ∧
      (st 0x00#8 0x00#8 0xFF#8 []).flags = 0xFF#8 := by decide
theorem test_witness_AccIsWrittenOnlyByItsInstructionsAndReset :
    transactsTo .reset (st 0x00#8 0x05#8 0x00#8 []) (st 0x00#8 0x00#8 0x00#8 []) = true ∧
      transactsTo .step (st 0x00#8 0x05#8 0x00#8 [(0, 0x20#8)]) (st 0x01#8 0x01#8 0x00#8 [(0, 0x20#8)]) = true := by decide
theorem test_witness_FlagsAreWrittenOnlyByTheirInstructionsAndReset :
    transactsTo .reset (st 0x00#8 0x00#8 0x81#8 []) (st 0x00#8 0x00#8 0x00#8 []) = true ∧
      transactsTo .step (st 0x00#8 0x81#8 0x00#8 [(0, 0x05#8)]) (st 0x01#8 0x81#8 0x81#8 [(0, 0x05#8)]) = true ∧
      transactsTo .step (st 0x00#8 0x00#8 0x80#8 [(0, 0x10#8)]) (st 0x02#8 0x00#8 0x81#8 [(0, 0x10#8)]) = true := by decide
theorem test_witness_PcIsWrittenOnlyByFetchJumpAndReset :
    transactsTo .reset (st 0x37#8 0x00#8 0x00#8 []) (st 0x00#8 0x00#8 0x00#8 []) = true ∧
      transactsTo .step (st 0xFF#8 0x00#8 0x00#8 []) (st 0x00#8 0x00#8 0x00#8 []) = true ∧
      transactsTo .step (st 0xFF#8 0x00#8 0x00#8 [(0, 0x07#8), (255, 0x01#8)])
        (st 0x01#8 0x07#8 0x00#8 [(0, 0x07#8), (255, 0x01#8)]) = true ∧
      transactsTo .step (st 0x00#8 0x00#8 0x00#8 [(0, 0x21#8), (1, 0xFF#8)])
        (st 0xFF#8 0x00#8 0x00#8 [(0, 0x21#8), (1, 0xFF#8)]) = true := by decide
theorem test_witness_MemoryIsWrittenOnlyByStaAndTheHost :
    transactsTo .step (st 0x00#8 0x99#8 0x00#8 [(0, 0x03#8), (1, 0xFF#8)])
        (st 0x02#8 0x99#8 0x00#8 [(0, 0x03#8), (1, 0xFF#8), (255, 0x99#8)]) = true ∧
      transactsTo (.writeMemory 0xFF#8 0x99#8) (st 0x00#8 0x00#8 0x00#8 [])
        (st 0x00#8 0x00#8 0x00#8 [(255, 0x99#8)]) = true := by decide
theorem test_witness_CanonicalMemoriesThatReadAlikeAreEqual :
    Memory.wf [(0, 0x21#8), (255, 0x01#8)] = true ∧
      ∀ a, Memory.read [(0, 0x21#8), (255, 0x01#8)] a = Memory.read [(0, 0x21#8), (255, 0x01#8)] a :=
  ⟨by decide, fun _ => rfl⟩
/-- Two memories that read alike and, one of them not canonical, are two lists. -/
theorem test_witness_NoStateIsHiddenFromTheHost :
    (∀ a, Memory.read [(5, 0x01#8)] a = Memory.read [(5, 0x01#8), (5, 0x02#8)] a) ∧
      ([(5, 0x01#8)] : Memory) ≠ [(5, 0x01#8), (5, 0x02#8)] := by
  refine ⟨fun a => ?_, by decide⟩
  simp only [Memory.read]
  split <;> rfl
/-- A two-byte instruction with a data access, and a jump that is not taken, with the written cell its operand's
target. -/
theorem test_witness_StepCommutesWithWritesToCellsItDoesNotAccess :
    ((st 0x00#8 0x00#8 0x00#8 [(0, 0x02#8), (1, 0x80#8)]).Inv ∧
      (0xFF#8 : Addr) ≠ 0x00#8 ∧ (0xFF#8 : Addr) ≠ 0x01#8 ∧ (0xFF#8 : Addr) ≠ 0x80#8 ∧
      (st 0x00#8 0x00#8 0x00#8 [(0, 0x02#8), (1, 0x80#8)]).accessesData) ∧
    ¬ (st 0x00#8 0x00#8 0x00#8 [(0, 0x24#8), (1, 0x80#8)]).accessesData := by decide
theorem test_witness_AStoreIsSeenByTheNextFetch :
    (st 0xFE#8 0x21#8 0x00#8 [(0xFE, 0x03#8)]).opcode = 0x03#8 ∧
      (st 0xFE#8 0x21#8 0x00#8 [(0xFE, 0x03#8)]).operand = (0xFE#8 : Byte) + 2#8 := by decide
theorem test_witness_ConditionalJumpAlwaysConsumesItsOperand :
    (st 0x00#8 0x00#8 0x01#8 [(0, 0x23#8)]).opcode = 0x23#8 ∧ (0x01#8 : Byte).getLsbD 0 = true ∧
      (st 0x00#8 0x00#8 0xFE#8 [(0, 0x26#8)]).opcode = 0x26#8 ∧ (!(0xFE#8 : Byte).getLsbD 0) = true := by decide
theorem test_witness_EveryStepKeepsTheInvariant :
    (st 0x00#8 0x99#8 0x00#8 [(0, 0x03#8), (1, 0xFF#8)]).Inv ∧
      stepsTo (st 0x00#8 0x99#8 0x00#8 [(0, 0x03#8), (1, 0xFF#8)])
        (st 0x02#8 0x99#8 0x00#8 [(0, 0x03#8), (1, 0xFF#8), (255, 0x99#8)]) = true := by decide
theorem test_witness_TransactionsNeverFailAndKeepTheInvariant :
    (st 0x37#8 0x9A#8 0xFF#8 [(0, 0xAB#8)]).Inv := by decide

end Sys2Proof.Tests
end

namespace Sys2Proof.Machine

/-! What `exec` does for the five flag-affecting instructions, in terms of `setZ` and `writeResult` -/

@[simp] theorem exec_cmp (imm : Byte) (s : State) : exec (.cmp imm) s = .next (s.setZ (imm == s.acc)) := rfl
@[simp] theorem exec_adi (imm : Byte) (s : State) : exec (.adi imm) s = .next (writeResult s (s.acc + imm)) := rfl
@[simp] theorem exec_add (addr : Addr) (s : State) :
    exec (.add addr) s = .next (writeResult s (s.acc + s.mem.read addr)) := rfl
@[simp] theorem exec_sui (imm : Byte) (s : State) : exec (.sui imm) s = .next (writeResult s (s.acc + imm)) := rfl
@[simp] theorem exec_sub (addr : Addr) (s : State) :
    exec (.sub addr) s = .next (writeResult s (s.acc - s.mem.read addr)) := rfl

/-! Bit 0 of `flags` (R29) -/

/-- A write of Z leaves nothing of the old bit 0. -/
theorem writeZ_getLsbD_zero (f : Byte) (z : Bool) : (writeZ f z).getLsbD 0 = z :=
  zFlagOf_writeZ f z

/-- R122: after an arithmetic result Z is the zero test of that result. -/
theorem writeResult_getLsbD_zero_iff (s : State) (r : Byte) :
    (writeResult s r).flags.getLsbD 0 = true ↔ r = 0x00#8 := by
  rw [writeResult_flags, writeZ_getLsbD_zero, beq_iff_eq]

/-- R120, R124: the equality that `cmp` tests is the zero test of the difference. -/
theorem setZ_beq_getLsbD_zero_iff (s : State) (a b : Byte) :
    (s.setZ (b == a)).flags.getLsbD 0 = true ↔ a - b = 0x00#8 := by
  have hdiff : a - b = 0x00#8 ↔ a = b := sub_eq_zero
  rw [hdiff, State.setZ_flags, writeZ_getLsbD_zero, beq_iff_eq, eq_comm]

/-- Settles O34: each of the five writes bit 0 through `writeZ`, whose bit 0 does not depend on the old flags. -/
theorem zeroFlagIsOverwrittenNotMerged : Obligations.ZeroFlagIsOverwrittenNotMerged := by
  intro b s r hr old
  simp only [List.mem_cons, List.not_mem_nil, or_false] at hr
  rcases hr with rfl | rfl | rfl | rfl | rfl
  · exact ⟨_, exec_cmp b _, setZ_beq_getLsbD_zero_iff _ s.acc b⟩
  · exact ⟨_, exec_adi b _, writeResult_getLsbD_zero_iff _ _⟩
  · exact ⟨_, exec_add b _, writeResult_getLsbD_zero_iff _ _⟩
  · exact ⟨_, exec_sui b _, writeResult_getLsbD_zero_iff _ _⟩
  · exact ⟨_, exec_sub b _, writeResult_getLsbD_zero_iff _ _⟩

/-! The host interface (R34) -/

@[simp] theorem transact_reset (s : State) : transact .reset s = .next (resetRegisters s) := rfl
@[simp] theorem transact_step (s : State) : transact .step s = step s := rfl
@[simp] theorem transact_readMemory (a : Addr) (s : State) : transact (.readMemory a) s = .next s := rfl
@[simp] theorem transact_writeMemory (a : Addr) (v : Byte) (s : State) :
    transact (.writeMemory a v) s = .next (s.memWrite a v) := rfl
@[simp] theorem transact_observePc (s : State) : transact .observePc s = .next s := rfl
@[simp] theorem transact_observeAcc (s : State) : transact .observeAcc s = .next s := rfl
@[simp] theorem transact_observeFlags (s : State) : transact .observeFlags s = .next s := rfl

/-- R34, R45: the host's write sets one byte, keeps every other one and the registers, and returns nothing. -/
theorem transact_writeMemory_spec (a : Addr) (v : Byte) (s : State) :
    answer (.writeMemory a v) s = none ∧
      ∃ t : State, transact (.writeMemory a v) s = .next t ∧ t.pc = s.pc ∧ t.acc = s.acc ∧ t.flags = s.flags ∧
        t.mem.read a = v ∧ ∀ b, b ≠ a → t.mem.read b = s.mem.read b :=
  ⟨rfl, s.memWrite a v, transact_writeMemory a v s, rfl, rfl, rfl,
    Memory.read_write_same s.mem a v, fun _ hb => Memory.read_write_other s.mem v hb⟩

/-- Settles O49, row by row of R34's table; only `writeMemory` needs the laws of memory. -/
theorem hostInterfaceOperations : Obligations.HostInterfaceOperations := by
  intro s a v
  exact ⟨⟨transact_reset s, rfl⟩, ⟨transact_step s, rfl⟩, ⟨transact_readMemory a s, rfl⟩,
    transact_writeMemory_spec a v s, ⟨transact_observePc s, rfl⟩, ⟨transact_observeAcc s, rfl⟩,
    ⟨transact_observeFlags s, rfl⟩⟩

end Sys2Proof.Machine

namespace Sys2Proof.Machine

/-! The opcode map read backwards (R60, R66): the bytes of the instruction that an opcode byte settles -/

theorem encode_of_dispatchOpcode_b1 {op : Byte} {i : Instr} (h : dispatchOpcode op = .b1 i) : encode i = [op] := by
  unfold dispatchOpcode at h
  split at h <;> cases h <;> rfl

theorem encode_of_dispatchOpcode_b2 {op : Byte} {k : Byte → Instr} (h : dispatchOpcode op = .b2 k) (b : Byte) :
    encode (k b) = [op, b] := by
  unfold dispatchOpcode at h
  split at h <;> cases h <;> rfl

/-! The fetch of an instruction -/

/-- R45, R80: fetching moves the `pc` and changes nothing else. -/
theorem fetchInstr_snd_eq_setPc (s : State) : ∃ n, (fetchInstr s).2 = s.setPc n := by
  cases hf : dispatchOpcode (s.mem.read s.pc) with
  | b1 i => exact ⟨_, congrArg Prod.snd (fetchInstr_b1 hf)⟩
  | b2 k => exact ⟨_, congrArg Prod.snd (fetchInstr_b2 hf)⟩

/-- R61: the fetched instruction is the one whose encoding stands at the `pc`. -/
theorem encode_fetchInstr (s : State) :
    encode (fetchInstr s).1 = [s.opcode] ∨ encode (fetchInstr s).1 = [s.opcode, s.operand] := by
  cases hf : dispatchOpcode (s.mem.read s.pc) with
  | b1 i =>
    rw [fetchInstr_b1 hf]
    exact .inl (encode_of_dispatchOpcode_b1 hf)
  | b2 k =>
    rw [fetchInstr_b2 hf]
    exact .inr (encode_of_dispatchOpcode_b2 hf s.operand)

/-- R66: `sta` is fetched from opcode 0x03 only, and its address is the operand byte. -/
theorem opcode_and_operand_of_fetchInstr_eq_sta {s : State} {a : Addr} (h : (fetchInstr s).1 = .sta a) :
    s.opcode = 0x03#8 ∧ a = s.operand := by
  have henc : encode (fetchInstr s).1 = [0x03#8, a] := by rw [h, encode]
  rcases encode_fetchInstr s with h1 | h2
  · simp [h1] at henc
  · simpa [h2, eq_comm] using henc

/-! What `exec` does to memory (R42, R102) -/

@[simp] theorem exec_sta (addr : Addr) (s : State) : exec (.sta addr) s = .next (s.memWrite addr s.acc) := rfl

@[simp] theorem jumpIf_mem (taken : Bool) (s : State) (target : Addr) : (jumpIf taken s target).mem = s.mem := by
  rw [jumpIf_eq, State.setPc_mem]

/-- R42: every instruction but `sta` answers a next state with the same memory. -/
theorem exec_keeps_mem {i : Instr} (hi : ∀ a, i ≠ .sta a) (s : State) :
    ∃ t : State, exec i s = .next t ∧ t.mem = s.mem := by
  cases i with
  | sta a => exact absurd rfl (hi a)
  | jiz imm | jmz imm | jin imm | jmn imm => exact ⟨_, rfl, jumpIf_mem _ s _⟩
  | _ => exact ⟨_, rfl, rfl⟩

/-! What a step does to memory -/

/-- R42: a step keeps memory, or it is a `sta` and stores `acc` in the cell its operand names. -/
theorem step_mem_cases {s t : State} (h : step s = .next t) :
    t.mem = s.mem ∨ (s.opcode = 0x03#8 ∧ t.mem = s.mem.write s.operand s.acc) := by
  obtain ⟨n, hn⟩ := fetchInstr_snd_eq_setPc s
  rw [step, hn] at h
  by_cases hsta : ∃ a, (fetchInstr s).1 = .sta a
  · obtain ⟨a, ha⟩ := hsta
    obtain ⟨hop, rfl⟩ := opcode_and_operand_of_fetchInstr_eq_sta ha
    rw [ha, exec_sta] at h
    cases h
    exact .inr ⟨hop, rfl⟩
  · obtain ⟨t', ht', hmem⟩ := exec_keeps_mem (not_exists.1 hsta) (s.setPc n)
    rw [ht'] at h
    cases h
    exact .inl hmem

/-- A write changes what is read at no address but its own (R45). -/
theorem Memory.eq_of_read_write_ne {m : Memory} {a b : Addr} {v : Byte} (h : (m.write a v).read b ≠ m.read b) :
    b = a :=
  not_not.1 fun hne => h (Memory.read_write_other m v hne)

/-- Settles O42, transaction by transaction: only `step` and `writeMemory` can answer a state with another memory. -/
theorem memoryIsWrittenOnlyByStaAndTheHost : Obligations.MemoryIsWrittenOnlyByStaAndTheHost := by
  intro tr s t a h hne
  cases tr with
  | step =>
    rcases step_mem_cases h with hkeep | ⟨hop, hwrite⟩
    · exact absurd (by rw [hkeep]) hne
    · rw [hwrite] at hne
      exact .inl ⟨rfl, hop, Memory.eq_of_read_write_ne hne⟩
  | writeMemory b v =>
    cases h
    obtain rfl := Memory.eq_of_read_write_ne hne
    exact .inr ⟨v, rfl⟩
  | reset | readMemory _ | observePc | observeAcc | observeFlags =>
    cases h
    exact absurd rfl hne

end Sys2Proof.Machine

namespace Sys2Proof.Machine

/-! The decoder, from the format that the opcode byte settles (R60, R62) -/

theorem decode_cons_of_b1 {op : Byte} {i : Instr} (h : dispatchOpcode op = .b1 i) (rest : List Byte) :
    decode (op :: rest) = .ok (i, rest) := by
  simp [decode, h]

theorem decode_cons_of_b2 {op : Byte} {k : Byte → Instr} (h : dispatchOpcode op = .b2 k) (operand : Byte)
    (rest : List Byte) : decode (op :: operand :: rest) = .ok (k operand, rest) := by
  simp [decode, h]

/-- Settles O3: an opcode of either format decodes when one more byte follows it. -/
theorem everyBytePatternDecodes : Obligations.EveryBytePatternDecodes := by
  intro op operand rest
  cases hf : dispatchOpcode op with
  | b1 i => exact ⟨i, operand :: rest, decode_cons_of_b1 hf _⟩
  | b2 k => exact ⟨k operand, rest, decode_cons_of_b2 hf operand rest⟩

/-! Lengths (R62) -/

theorem encode_length (i : Instr) : (encode i).length = i.length := by
  cases i <;> rfl

theorem length_of_dispatchOpcode_b1 {op : Byte} {i : Instr} (h : dispatchOpcode op = .b1 i) : i.length = 1 :=
  (encode_length i).symm.trans (congrArg List.length (encode_of_dispatchOpcode_b1 h))

theorem length_of_dispatchOpcode_b2 {op : Byte} {k : Byte → Instr} (h : dispatchOpcode op = .b2 k) (b : Byte) :
    (k b).length = 2 :=
  (encode_length (k b)).symm.trans (congrArg List.length (encode_of_dispatchOpcode_b2 h b))

theorem not_mem_twoByteOpcodes_of_dispatchOpcode_b1 {op : Byte} {i : Instr} (h : dispatchOpcode op = .b1 i) :
    op ∉ twoByteOpcodes := by
  intro hmem
  simp only [twoByteOpcodes, List.mem_cons, List.not_mem_nil, or_false] at hmem
  rcases hmem with rfl | rfl | rfl | rfl | rfl | rfl | rfl | rfl | rfl | rfl | rfl | rfl | rfl | rfl <;> cases h

theorem mem_twoByteOpcodes_of_dispatchOpcode_b2 {op : Byte} {k : Byte → Instr} (h : dispatchOpcode op = .b2 k) :
    op ∈ twoByteOpcodes := by
  unfold dispatchOpcode at h
  split at h <;> cases h <;> decide

/-- Settles O4: the list of two-byte opcodes is the list of those with format B2, and the format gives the length of
the instruction and the bytes the decoder takes. -/
theorem lengthDependsOnOpcodeAlone : Obligations.LengthDependsOnOpcodeAlone := by
  intro op operand rest rest' i hdec
  cases hf : dispatchOpcode op with
  | b1 j =>
    rw [decode_cons_of_b1 hf] at hdec
    cases hdec
    exact ⟨fun hmem => absurd hmem (not_mem_twoByteOpcodes_of_dispatchOpcode_b1 hf),
      fun _ => ⟨length_of_dispatchOpcode_b1 hf, rfl⟩⟩
  | b2 k =>
    rw [decode_cons_of_b2 hf] at hdec
    cases hdec
    exact ⟨fun _ => ⟨length_of_dispatchOpcode_b2 hf operand, rfl⟩,
      fun hmem => absurd (mem_twoByteOpcodes_of_dispatchOpcode_b2 hf) hmem⟩

/-! The unknown opcodes (R68, R84) -/

theorem dispatchOpcode_eq_unknown_iff (op : Byte) :
    dispatchOpcode op = .b1 (.unknown op) ↔ isUnknownOpcode op = true := by
  constructor
  · intro h
    simpa [h] using dispatchOpcode_cases op
  · intro hu
    unfold dispatchOpcode
    split
    case h_18 => rfl
    all_goals exact absurd hu (by decide)

/-- R68: the byte is read as an unknown instruction exactly if the opcode map has no row for it; a two-byte instruction
is no answer, since it takes a byte of `rest` or is rejected. -/
theorem decode_cons_eq_unknown_iff (op : Byte) (rest : List Byte) :
    decode (op :: rest) = .ok (.unknown op, rest) ↔ isUnknownOpcode op = true := by
  rw [← dispatchOpcode_eq_unknown_iff]
  cases hf : dispatchOpcode op with
  | b1 i => simp [decode_cons_of_b1 hf]
  | b2 k =>
    cases rest with
    | nil => simp [decode, hf]
    | cons operand rest => simp [decode_cons_of_b2 hf]

theorem isUnknownOpcode_iff (op : Byte) :
    isUnknownOpcode op = true ↔
      op = 0x00#8 ∨ (0x06 ≤ op.toNat ∧ op.toNat ≤ 0x0F) ∨ (0x15 ≤ op.toNat ∧ op.toNat ≤ 0x1F) ∨
        (0x27 ≤ op.toNat ∧ op.toNat ≤ 0xFF) := by
  simp [isUnknownOpcode, BitVec.le_def, or_assoc]

/-- The last range of R68: all 217 bytes from 0x27 up are unknown. -/
theorem countP_wellFormed_unknown_from_0x27 :
    (List.range' 0x27 217).countP (fun n => Instr.wellFormed (.unknown (BitVec.ofNat 8 n))) = 217 := by
  rw [List.countP_eq_length.2, List.length_range']
  intro n hn
  rw [List.mem_range'_1] at hn
  simp only [Instr.wellFormed, isUnknownOpcode_iff, BitVec.toNat_ofNat]
  omega

/-- The count is cut at 0x27, where the opcode map ends: 22 unknown bytes stand among its rows, and all the rest are
unknown. -/
theorem length_filter_wellFormed_unknown :
    ((List.range 256).filter (fun n => Instr.wellFormed (.unknown (BitVec.ofNat 8 n)))).length = 239 := by
  have hsplit : List.range 256 = List.range' 0 0x27 ++ List.range' 0x27 217 := by
    rw [List.range_eq_range', List.range'_append_1]
  rw [← List.countP_eq_length_filter, hsplit, List.countP_append, countP_wellFormed_unknown_from_0x27]
  decide

@[simp] theorem exec_unknown (opcode : Byte) (s : State) : exec (.unknown opcode) s = .next s := rfl

/-- Settles O5: decoding to `unknown` is being an unknown opcode, and that is the four ranges. -/
theorem unknownOpcodesAreTheRangesOfTheSpec : Obligations.UnknownOpcodesAreTheRangesOfTheSpec :=
  ⟨fun op rest => (decode_cons_eq_unknown_iff op rest).trans (isUnknownOpcode_iff op),
    length_filter_wellFormed_unknown, exec_unknown⟩

/-- Settles O6: 0x01 and 0x10 are the two-byte opcodes of `ldi` and `cmp`. -/
theorem specEncodingExampleDecodes : Obligations.SpecEncodingExampleDecodes :=
  ⟨decode_cons_of_b2 rfl _ _, decode_cons_of_b2 rfl _ _⟩

end Sys2Proof.Machine

namespace Sys2Proof.Machine

/-! Fetch and step (R80 to R85) -/

/-- R85: every instruction has a meaning, and it answers a next state. -/
theorem exec_eq_next (i : Instr) (s : State) : ∃ t : State, exec i s = .next t := by
  cases i <;> exact ⟨_, rfl⟩

/-- Settles O10: a step is `exec` of the fetched instruction, and both are total. -/
theorem stepAnswersANextStateAlways : Obligations.StepAnswersANextStateAlways :=
  fun s => exec_eq_next (fetchInstr s).1 (fetchInstr s).2

/-- Settles O8: the model's fetch unit is written in the two branches of R80. -/
theorem fetchReturnsByteAndAdvancesPc : Obligations.FetchReturnsByteAndAdvancesPc :=
  fun _ => rfl

/-- R83: the step on an opcode of format B1 runs its instruction after the opcode fetch alone. -/
theorem step_of_dispatchOpcode_b1 {s : State} {i : Instr} (h : dispatchOpcode (s.mem.read s.pc) = .b1 i) :
    step s = exec i (s.setPc (s.pc + 1#8)) := by
  rw [step, fetchInstr_b1 h]

/-- Settles O11: an unknown opcode is of format B1, and its meaning changes nothing after the fetch. -/
theorem unknownOpcodeOnlyAdvancesPc : Obligations.UnknownOpcodeOnlyAdvancesPc := by
  intro s hunknown
  have hformat : dispatchOpcode (s.mem.read s.pc) = .b1 (.unknown (s.mem.read s.pc)) :=
    (dispatchOpcode_eq_unknown_iff _).2 hunknown
  rw [step_of_dispatchOpcode_b1 hformat, exec_unknown, State.setPc]

end Sys2Proof.Machine

namespace Sys2Proof.Machine

/-! What `exec` does for `ldi`, `lda`, `ldf` and `stf` (R100, R101, R103, R104), in terms of the register writes -/

@[simp] theorem exec_ldi (imm : Byte) (s : State) : exec (.ldi imm) s = .next (s.setAcc imm) := rfl
@[simp] theorem exec_lda (addr : Addr) (s : State) : exec (.lda addr) s = .next (s.setAcc (s.mem.read addr)) := rfl
@[simp] theorem exec_ldf (s : State) : exec .ldf s = .next (s.setAcc s.flags) := rfl
@[simp] theorem exec_stf (s : State) : exec .stf s = .next (s.setFlags s.acc) := rfl

/-- R102, R45: `sta` puts `acc` in the cell it names, and keeps every other cell and the registers. -/
theorem exec_sta_spec (a : Addr) (s : State) :
    ∃ t : State, exec (.sta a) s = .next t ∧ t.pc = s.pc ∧ t.acc = s.acc ∧ t.flags = s.flags ∧
      t.mem.read a = s.acc ∧ ∀ b, b ≠ a → t.mem.read b = s.mem.read b :=
  ⟨s.memWrite a s.acc, exec_sta a s, rfl, rfl, rfl,
    Memory.read_write_same s.mem a s.acc, fun _ hb => Memory.read_write_other s.mem s.acc hb⟩

/-- R83: the step on an opcode of format B2 runs its instruction after the fetches of opcode and operand. -/
theorem step_of_dispatchOpcode_b2 {s : State} {k : Byte → Instr} (h : dispatchOpcode (s.mem.read s.pc) = .b2 k) :
    step s = exec (k (s.mem.read (s.pc + 1#8))) (s.setPc (s.pc + 2#8)) := by
  rw [step, fetchInstr_b2 h]

/-! The loads and stores: each statement is the meaning of the instruction, and the same meaning after its fetches -/

/-- Settles O15: 0x01 is of format B2, and the meaning of `ldi` writes `acc` only. -/
theorem ldiLoadsTheImmediate : Obligations.LdiLoadsTheImmediate := by
  intro s
  refine ⟨fun imm => exec_ldi imm s, fun hop => ?_⟩
  have hformat : dispatchOpcode (s.mem.read s.pc) = .b2 .ldi := congrArg dispatchOpcode hop
  rw [step_of_dispatchOpcode_b2 hformat, exec_ldi, State.setPc, State.setAcc]

/-- Settles O16: 0x02 is of format B2, and the fetches leave the memory that `lda` reads as it was. -/
theorem ldaLoadsFromMemory : Obligations.LdaLoadsFromMemory := by
  intro s
  refine ⟨fun a => exec_lda a s, fun hop => ?_⟩
  have hformat : dispatchOpcode (s.mem.read s.pc) = .b2 .lda := congrArg dispatchOpcode hop
  rw [step_of_dispatchOpcode_b2 hformat, exec_lda, State.setPc, State.setAcc]

/-- Settles O17: 0x03 is of format B2, and the step stores what `exec` stores from the state past the operand. -/
theorem staStoresTheAccumulator : Obligations.StaStoresTheAccumulator := by
  intro s
  refine ⟨fun a => exec_sta_spec a s, fun hop => ?_⟩
  have hformat : dispatchOpcode (s.mem.read s.pc) = .b2 .sta := congrArg dispatchOpcode hop
  rw [step_of_dispatchOpcode_b2 hformat]
  exact exec_sta_spec (s.mem.read (s.pc + 1#8)) (s.setPc (s.pc + 2#8))

/-- Settles O18: 0x04 is of format B1, and the opcode fetch leaves the flags that `ldf` copies as they were. -/
theorem ldfLoadsAllEightFlagBits : Obligations.LdfLoadsAllEightFlagBits := by
  intro s
  refine ⟨exec_ldf s, fun hop => ?_⟩
  have hformat : dispatchOpcode (s.mem.read s.pc) = .b1 .ldf := congrArg dispatchOpcode hop
  rw [step_of_dispatchOpcode_b1 hformat, exec_ldf, State.setPc, State.setAcc]

/-- Settles O19: 0x05 is of format B1, and the opcode fetch leaves the `acc` that `stf` copies as it was. -/
theorem stfStoresAllEightFlagBits : Obligations.StfStoresAllEightFlagBits := by
  intro s
  refine ⟨exec_stf s, fun hop => ?_⟩
  have hformat : dispatchOpcode (s.mem.read s.pc) = .b1 .stf := congrArg dispatchOpcode hop
  rw [step_of_dispatchOpcode_b1 hformat, exec_stf, State.setPc, State.setFlags]

end Sys2Proof.Machine

namespace Sys2Proof.Machine

/-! The ALU instructions (R120 to R129): the two ways of writing Z as explicit states, with bits 7:1 of `flags` kept -/

theorem setZ_beq_eq (s : State) (a b : Byte) :
    s.setZ (a == b) = { s with flags := s.flags.extractLsb' 1 7 ++ BitVec.ofBool (decide (a = b)) } := rfl

theorem writeResult_eq (s : State) (r : Byte) :
    writeResult s r =
      { s with acc := r, flags := s.flags.extractLsb' 1 7 ++ BitVec.ofBool (decide (r = 0x00#8)) } := rfl

/-- R123: a result goes to `acc`, and `pc` and memory stay. -/
theorem writeResult_acc_and_frame (s : State) (r : Byte) :
    (writeResult s r).acc = r ∧ (writeResult s r).pc = s.pc ∧ ∀ a, (writeResult s r).mem.read a = s.mem.read a :=
  ⟨writeResult_acc s r, writeResult_pc s r, fun a => congrArg (·.read a) (writeResult_mem s r)⟩

/-- R123: each arithmetic instruction does nothing but write one result. -/
theorem exec_arithmetic_eq_writeResult {b : Byte} {i : Instr} (hi : i ∈ [Instr.adi b, .add b, .sui b, .sub b])
    (s : State) : ∃ r : Byte, exec i s = .next (writeResult s r) := by
  simp only [List.mem_cons, List.not_mem_nil, or_false] at hi
  rcases hi with rfl | rfl | rfl | rfl
  · exact ⟨_, exec_adi b s⟩
  · exact ⟨_, exec_add b s⟩
  · exact ⟨_, exec_sui b s⟩
  · exact ⟨_, exec_sub b s⟩

/-- Settles O32: the flag law is one of `writeResult`, whatever the result is. -/
theorem arithmeticZeroFlagLaw : Obligations.ArithmeticZeroFlagLaw := by
  intro b s i hi
  obtain ⟨r, hexec⟩ := exec_arithmetic_eq_writeResult hi s
  exact ⟨writeResult s r, hexec, writeResult_getLsbD_zero_iff s r,
    fun _ hk _ => writeZ_getLsbD_of_pos s.flags (r == 0x00#8) hk⟩

/-- R121: the difference modulo 256, with the 256 added to the minuend as the spec writes it. -/
theorem byte_toNat_sub (a b : Byte) : (a - b).toNat = (a.toNat + 256 - b.toNat) % 256 := by
  have hb : b.toNat < 256 := b.isLt
  rw [BitVec.toNat_sub]
  omega

/-- Settles O35: the frame is that of `writeResult`, and the result is the sum or difference of `BitVec`. -/
theorem arithmeticWrapsModulo256 : Obligations.ArithmeticWrapsModulo256 := by
  intro b s r hr
  simp only [List.mem_cons, List.not_mem_nil, or_false] at hr
  rcases hr with rfl | rfl | rfl | rfl
  · exact ⟨_, exec_adi b s, BitVec.toNat_add s.acc b, writeResult_eq s _⟩
  · exact ⟨_, exec_add b s, BitVec.toNat_add s.acc (s.mem.read b), writeResult_eq s _⟩
  · exact ⟨_, exec_sui b s, BitVec.toNat_add s.acc b, writeResult_eq s _⟩
  · exact ⟨_, exec_sub b s, byte_toNat_sub s.acc (s.mem.read b), writeResult_eq s _⟩

/-- Settles O20: `cmp` writes Z only, 0x10 is of format B2, and two bytes are equal if their difference is 0. -/
theorem cmpSetsZFromEquality : Obligations.CmpSetsZFromEquality := by
  intro s
  refine ⟨fun imm => ?_, fun imm => ?_, fun hop => ?_⟩
  · rw [exec_cmp, setZ_beq_eq]
  · exact eq_comm.trans sub_eq_zero.symm
  · have hformat : dispatchOpcode (s.mem.read s.pc) = .b2 .cmp := congrArg dispatchOpcode hop
    rw [step_of_dispatchOpcode_b2 hformat, exec_cmp, setZ_beq_eq, State.setPc]

/-- Settles O21: 0x11 is of format B2, and `adi` writes the sum with its operand. -/
theorem adiAddsTheImmediate : Obligations.AdiAddsTheImmediate := by
  intro s
  refine ⟨fun imm => ?_, fun hop => ?_⟩
  · rw [exec_adi, writeResult_eq]
  · have hformat : dispatchOpcode (s.mem.read s.pc) = .b2 .adi := congrArg dispatchOpcode hop
    rw [step_of_dispatchOpcode_b2 hformat, exec_adi, writeResult_eq, State.setPc]

/-- Settles O22: 0x12 is of format B2, and the fetches leave the `acc` and the memory that `add` reads as they were. -/
theorem addAddsFromMemory : Obligations.AddAddsFromMemory := by
  intro s
  refine ⟨fun a => ?_, fun hop => ?_⟩
  · rw [exec_add, writeResult_eq]
  · have hformat : dispatchOpcode (s.mem.read s.pc) = .b2 .add := congrArg dispatchOpcode hop
    rw [step_of_dispatchOpcode_b2 hformat, exec_add, writeResult_eq, State.setPc]

/-- Settles O23: 0x13 is of format B2, and `sui` and `adi` write the same sum. -/
theorem suiAddsDespiteItsName : Obligations.SuiAddsDespiteItsName := by
  intro s
  refine ⟨fun imm => ?_, fun imm => ?_, fun hop => ?_⟩
  · rw [exec_sui, writeResult_eq]
  · rw [exec_sui, exec_adi]
  · have hformat : dispatchOpcode (s.mem.read s.pc) = .b2 .sui := congrArg dispatchOpcode hop
    rw [step_of_dispatchOpcode_b2 hformat, exec_sui, writeResult_eq, State.setPc]

/-- Settles O24: 0x14 is of format B2, and `sub` writes the difference with `acc` as the minuend. -/
theorem subSubtractsMemoryFromAcc : Obligations.SubSubtractsMemoryFromAcc := by
  intro s
  refine ⟨fun a => ?_, fun hop => ?_⟩
  · rw [exec_sub, writeResult_eq]
  · have hformat : dispatchOpcode (s.mem.read s.pc) = .b2 .sub := congrArg dispatchOpcode hop
    rw [step_of_dispatchOpcode_b2 hformat, exec_sub, writeResult_eq, State.setPc]

/-- Settles O33: `cmp` ends in `setZ`, which keeps `acc`, the others in `writeResult`; neither touches `pc` or memory. -/
theorem aluResultGoesToAccOnly : Obligations.AluResultGoesToAccOnly := by
  intro b s r hr
  simp only [List.mem_cons, List.not_mem_nil, or_false] at hr
  rcases hr with rfl | rfl | rfl | rfl | rfl
  · exact ⟨_, exec_cmp b s, State.setZ_acc s _, State.setZ_pc s _, fun a => congrArg (·.read a) (State.setZ_mem s _)⟩
  · exact ⟨_, exec_adi b s, writeResult_acc_and_frame s _⟩
  · exact ⟨_, exec_add b s, writeResult_acc_and_frame s _⟩
  · exact ⟨_, exec_sui b s, writeResult_acc_and_frame s _⟩
  · exact ⟨_, exec_sub b s, writeResult_acc_and_frame s _⟩

end Sys2Proof.Machine

namespace Sys2Proof.Machine

/-! The meanings of `ldp` and the jumps (R140 to R146): the branch condition is bit 0 of `flags` or its negation -/

@[simp] theorem exec_ldp (s : State) : exec .ldp s = .next (s.setAcc s.pc) := rfl
@[simp] theorem exec_jmi (imm : Addr) (s : State) : exec (.jmi imm) s = .next (s.setPc imm) := rfl
@[simp] theorem exec_jmp (addr : Addr) (s : State) : exec (.jmp addr) s = .next (s.setPc (s.mem.read addr)) := rfl
@[simp] theorem exec_jiz (imm : Addr) (s : State) :
    exec (.jiz imm) s = .next (jumpIf (s.flags.getLsbD 0) s imm) := rfl
@[simp] theorem exec_jmz (addr : Addr) (s : State) :
    exec (.jmz addr) s = .next (jumpIf (s.flags.getLsbD 0) s (s.mem.read addr)) := rfl
@[simp] theorem exec_jin (imm : Addr) (s : State) :
    exec (.jin imm) s = .next (jumpIf (!s.flags.getLsbD 0) s imm) := rfl
@[simp] theorem exec_jmn (addr : Addr) (s : State) :
    exec (.jmn addr) s = .next (jumpIf (!s.flags.getLsbD 0) s (s.mem.read addr)) := rfl

/-! A conditional jump, taken and not taken -/

theorem jumpIf_true (s : State) (target : Addr) : jumpIf true s target = { s with pc := target } := rfl
theorem jumpIf_false (s : State) (target : Addr) : jumpIf false s target = s := rfl

theorem jumpIf_not_eq (b : Bool) (s : State) (target : Addr) :
    jumpIf (!b) s target = s.setPc (if b then s.pc else target) := by
  cases b <;> rfl

/-- A conditional jump neither reads `flags` beyond its condition nor writes them. -/
theorem jumpIf_with_flags (b : Bool) (s : State) (f : Byte) (target : Addr) :
    jumpIf b { s with flags := f } target = { jumpIf b s target with flags := f } := by
  cases b <;> rfl

/-! The steps on the conditional jumps: the jump starts past its operand, whether it is taken or not (R147) -/

section
variable {s : State}

theorem step_of_opcode_jiz (hop : s.opcode = 0x23#8) :
    step s = .next (jumpIf (s.flags.getLsbD 0) (s.setPc (s.pc + 2#8)) s.operand) := by
  have hformat : dispatchOpcode (s.mem.read s.pc) = .b2 .jiz := congrArg dispatchOpcode hop
  rw [step_of_dispatchOpcode_b2 hformat, exec_jiz, State.setPc_flags, State.operand]

theorem step_of_opcode_jmz (hop : s.opcode = 0x24#8) :
    step s = .next (jumpIf (s.flags.getLsbD 0) (s.setPc (s.pc + 2#8)) (s.mem.read s.operand)) := by
  have hformat : dispatchOpcode (s.mem.read s.pc) = .b2 .jmz := congrArg dispatchOpcode hop
  rw [step_of_dispatchOpcode_b2 hformat, exec_jmz, State.setPc_flags, State.setPc_mem, State.operand]

theorem step_of_opcode_jin (hop : s.opcode = 0x25#8) :
    step s = .next (jumpIf (!s.flags.getLsbD 0) (s.setPc (s.pc + 2#8)) s.operand) := by
  have hformat : dispatchOpcode (s.mem.read s.pc) = .b2 .jin := congrArg dispatchOpcode hop
  rw [step_of_dispatchOpcode_b2 hformat, exec_jin, State.setPc_flags, State.operand]

theorem step_of_opcode_jmn (hop : s.opcode = 0x26#8) :
    step s = .next (jumpIf (!s.flags.getLsbD 0) (s.setPc (s.pc + 2#8)) (s.mem.read s.operand)) := by
  have hformat : dispatchOpcode (s.mem.read s.pc) = .b2 .jmn := congrArg dispatchOpcode hop
  rw [step_of_dispatchOpcode_b2 hformat, exec_jmn, State.setPc_flags, State.setPc_mem, State.operand]

/-- R147: a step that ends in a conditional jump has two outcomes, and the operand is consumed in both. -/
theorem step_taken_or_past_operand {taken : Bool} {target : Addr}
    (hstep : step s = .next (jumpIf taken (s.setPc (s.pc + 2#8)) target)) :
    (taken = true → step s = .next { s with pc := target }) ∧
      (taken = false → step s = .next { s with pc := s.pc + 2#8 }) := by
  rw [hstep]
  refine ⟨fun htaken => ?_, fun hnot => ?_⟩
  · rw [htaken, jumpIf_true, State.setPc]
  · rw [hnot, jumpIf_false, State.setPc]

/-! The four branches under a known Z -/

theorem exec_branches_of_z_clear (hz : s.flags.getLsbD 0 = false) (x : Byte) :
    exec (.jiz x) s = .next s ∧ exec (.jmz x) s = .next s ∧
      exec (.jin x) s = .next { s with pc := x } ∧ exec (.jmn x) s = .next { s with pc := s.mem.read x } := by
  rw [exec_jiz, exec_jmz, exec_jin, exec_jmn, hz, Bool.not_false]
  simp only [jumpIf_true, jumpIf_false, and_self]

theorem exec_branches_of_z_set (hz : s.flags.getLsbD 0 = true) (x : Byte) :
    exec (.jiz x) s = .next { s with pc := x } ∧ exec (.jmz x) s = .next { s with pc := s.mem.read x } ∧
      exec (.jin x) s = .next s ∧ exec (.jmn x) s = .next s := by
  rw [exec_jiz, exec_jmz, exec_jin, exec_jmn, hz, Bool.not_true]
  simp only [jumpIf_true, jumpIf_false, and_self]

end

/-- Settles O36: each of the four steps ends in a conditional jump from the state past the operand. -/
theorem conditionalJumpAlwaysConsumesItsOperand : Obligations.ConditionalJumpAlwaysConsumesItsOperand := by
  intro s r hr hop
  simp only [List.mem_cons, List.not_mem_nil, or_false] at hr
  rcases hr with rfl | rfl | rfl | rfl
  · exact step_taken_or_past_operand (step_of_opcode_jiz hop)
  · exact step_taken_or_past_operand (step_of_opcode_jmz hop)
  · exact step_taken_or_past_operand (step_of_opcode_jin hop)
  · exact step_taken_or_past_operand (step_of_opcode_jmn hop)

/-- R149: two states that agree but for `flags`, and there in bit 0, take every branch alike and keep their flags. -/
theorem exec_branch_with_flags {s : State} {f x : Byte} (hbit : f.getLsbD 0 = s.flags.getLsbD 0) {i : Instr}
    (hi : i ∈ [Instr.jiz x, .jmz x, .jin x, .jmn x]) :
    ∃ t : State, exec i s = .next t ∧ exec i { s with flags := f } = .next { t with flags := f } := by
  simp only [List.mem_cons, List.not_mem_nil, or_false] at hi
  rcases hi with rfl | rfl | rfl | rfl
  · exact ⟨_, exec_jiz x s, by rw [exec_jiz, hbit, jumpIf_with_flags]⟩
  · exact ⟨_, exec_jmz x s, by rw [exec_jmz, hbit, jumpIf_with_flags]⟩
  · exact ⟨_, exec_jin x s, by rw [exec_jin, hbit, jumpIf_with_flags]⟩
  · exact ⟨_, exec_jmn x s, by rw [exec_jmn, hbit, jumpIf_with_flags]⟩

/-- Settles O37: the branches depend on bit 0, which is clear in 0xFE and set in 0x01 and 0xFF. -/
theorem branchReadsOnlyTheZeroFlag : Obligations.BranchReadsOnlyTheZeroFlag := by
  refine ⟨fun s f x hbit i hi => exec_branch_with_flags hbit hi, fun s x => ⟨fun hflags => ?_, fun hflags => ?_⟩⟩
  · have hclear : s.flags.getLsbD 0 = false := by rw [hflags]; rfl
    exact exec_branches_of_z_clear hclear x
  · have hset : s.flags.getLsbD 0 = true := by rcases hflags with h | h <;> rw [h] <;> rfl
    exact exec_branches_of_z_set hset x

/-! Each instruction of 43_control.md: its meaning, and the same meaning after its fetches -/

/-- Settles O25: 0x20 is of format B1, so the `pc` that `ldp` copies is one past its opcode. -/
theorem ldpLoadsThePcAfterItsOpcode : Obligations.LdpLoadsThePcAfterItsOpcode := by
  intro s
  refine ⟨exec_ldp s, fun hop => ?_⟩
  have hformat : dispatchOpcode (s.mem.read s.pc) = .b1 .ldp := congrArg dispatchOpcode hop
  rw [step_of_dispatchOpcode_b1 hformat, exec_ldp, State.setPc, State.setAcc]

/-- Settles O26: 0x21 is of format B2, and the jump overwrites the `pc` that the fetches left. -/
theorem jmiJumpsToTheImmediate : Obligations.JmiJumpsToTheImmediate := by
  intro s
  refine ⟨fun target => exec_jmi target s, fun hop => ?_⟩
  have hformat : dispatchOpcode (s.mem.read s.pc) = .b2 .jmi := congrArg dispatchOpcode hop
  rw [step_of_dispatchOpcode_b2 hformat, exec_jmi, State.setPc, State.setPc]

/-- Settles O27: 0x22 is of format B2, and the fetches leave the memory that `jmp` reads as it was. -/
theorem jmpJumpsThroughMemory : Obligations.JmpJumpsThroughMemory := by
  intro s
  refine ⟨fun a => exec_jmp a s, fun hop => ?_⟩
  have hformat : dispatchOpcode (s.mem.read s.pc) = .b2 .jmp := congrArg dispatchOpcode hop
  rw [step_of_dispatchOpcode_b2 hformat, exec_jmp, State.setPc_mem, State.setPc, State.setPc]

/-- Settles O28: `jiz` is a jump under Z, from the state past its operand in a whole step. -/
theorem jizJumpsIfZIsSet : Obligations.JizJumpsIfZIsSet := by
  intro s
  refine ⟨fun target => ?_, fun hop => ?_⟩
  · rw [exec_jiz, jumpIf_eq, State.setPc]
  · rw [step_of_opcode_jiz hop, jumpIf_eq, State.setPc_pc, State.operand, State.setPc, State.setPc]

/-- Settles O29: `jmz` is a jump under Z, from the state past its operand in a whole step. -/
theorem jmzJumpsThroughMemoryIfZIsSet : Obligations.JmzJumpsThroughMemoryIfZIsSet := by
  intro s
  refine ⟨fun a => ?_, fun hop => ?_⟩
  · rw [exec_jmz, jumpIf_eq, State.setPc]
  · rw [step_of_opcode_jmz hop, jumpIf_eq, State.setPc_pc, State.operand, State.setPc, State.setPc]

/-- Settles O30: `jin` is a jump under the negation of Z, from the state past its operand in a whole step. -/
theorem jinJumpsIfZIsClear : Obligations.JinJumpsIfZIsClear := by
  intro s
  refine ⟨fun target => ?_, fun hop => ?_⟩
  · rw [exec_jin, jumpIf_not_eq, State.setPc]
  · rw [step_of_opcode_jin hop, jumpIf_not_eq, State.setPc_pc, State.operand, State.setPc, State.setPc]

/-- Settles O31: `jmn` is a jump under the negation of Z, from the state past its operand in a whole step. -/
theorem jmnJumpsThroughMemoryIfZIsClear : Obligations.JmnJumpsThroughMemoryIfZIsClear := by
  intro s
  refine ⟨fun a => ?_, fun hop => ?_⟩
  · rw [exec_jmn, jumpIf_not_eq, State.setPc]
  · rw [step_of_opcode_jmn hop, jumpIf_not_eq, State.setPc_pc, State.operand, State.setPc, State.setPc]

end Sys2Proof.Machine

namespace Sys2Proof.Machine

/-! Reset (R190) -/

/-- R190: reset as one update of the state, which names the three registers and leaves memory out. -/
theorem resetRegisters_eq (s : State) :
    resetRegisters s = { s with pc := 0x00#8, acc := 0x00#8, flags := 0x00#8 } := rfl

@[simp] theorem answer_reset (s : State) : answer .reset s = none := rfl

/-- Settles O48: the transaction is `resetRegisters`, which writes the three registers only. -/
theorem resetZeroesTheRegistersAndKeepsMemory : Obligations.ResetZeroesTheRegistersAndKeepsMemory := by
  intro s
  refine ⟨answer_reset s, ?_⟩
  rw [transact_reset, resetRegisters_eq]

end Sys2Proof.Machine

namespace Sys2Proof.Machine

/-! Decode and encode (R60 to R69): the encoding of a well-formed instruction and the decoder share one opcode map -/

/-- R60, R66: a well-formed instruction is one of format B1 with its opcode byte, or one of format B2 with its opcode
and operand bytes. -/
theorem encode_format_of_wellFormed {i : Instr} (h : i.wellFormed = true) :
    (∃ op, encode i = [op] ∧ dispatchOpcode op = .b1 i) ∨
      ∃ op operand k, encode i = [op, operand] ∧ dispatchOpcode op = .b2 k ∧ k operand = i := by
  cases i with
  | unknown op => exact .inl ⟨op, rfl, (dispatchOpcode_eq_unknown_iff op).2 h⟩
  | ldf | stf | ldp => exact .inl ⟨_, rfl, rfl⟩
  | _ => exact .inr ⟨_, _, _, rfl, rfl, rfl⟩

/-- Settles O1: the decoder takes the opcode byte of the encoding, and the operand byte if the format asks for it. -/
theorem decodingAnEncodedInstructionGivesItBack : Obligations.DecodingAnEncodedInstructionGivesItBack := by
  intro i rest hwf
  rcases encode_format_of_wellFormed hwf with ⟨op, henc, hf⟩ | ⟨op, operand, k, henc, hf, rfl⟩
  · rw [henc]
    exact decode_cons_of_b1 hf rest
  · rw [henc]
    exact decode_cons_of_b2 hf operand rest

/-- R68: only an unknown opcode is read as an `unknown` instruction. -/
theorem wellFormed_of_dispatchOpcode_b1 {op : Byte} {i : Instr} (h : dispatchOpcode op = .b1 i) :
    i.wellFormed = true := by
  cases i with
  | unknown op' =>
    have henc : [op'] = [op] := encode_of_dispatchOpcode_b1 h
    obtain rfl : op' = op := List.head_eq_of_cons_eq henc
    exact (dispatchOpcode_eq_unknown_iff op').1 h
  | _ => rfl

/-- R64: an instruction with an operand is never `unknown`, which has one byte, so every operand is legal. -/
theorem wellFormed_of_dispatchOpcode_b2 {op : Byte} {k : Byte → Instr} (h : dispatchOpcode op = .b2 k) (b : Byte) :
    (k b).wellFormed = true := by
  have hlength : (k b).length = 2 := length_of_dispatchOpcode_b2 h b
  generalize k b = i at hlength
  cases i with
  | unknown op' => cases hlength
  | _ => rfl

/-- Settles O2: the decoder succeeds in two ways, and in each the bytes it took are the encoding of the format's
instruction. -/
theorem encodingADecodedInstructionGivesItsBytes : Obligations.EncodingADecodedInstructionGivesItsBytes := by
  intro bytes rest i hdec
  cases bytes with
  | nil => cases hdec
  | cons op bytes =>
    cases hf : dispatchOpcode op with
    | b1 j =>
      rw [decode_cons_of_b1 hf] at hdec
      cases hdec
      exact ⟨wellFormed_of_dispatchOpcode_b1 hf, by rw [encode_of_dispatchOpcode_b1 hf, List.singleton_append]⟩
    | b2 k =>
      cases bytes with
      | nil => simp [decode, hf] at hdec
      | cons operand bytes =>
        rw [decode_cons_of_b2 hf] at hdec
        cases hdec
        exact ⟨wellFormed_of_dispatchOpcode_b2 hf operand, by rw [encode_of_dispatchOpcode_b2 hf]; rfl⟩

/-- Settles O7: each row has its format in the opcode map, and the format settles what the decoder reads. -/
theorem opcodeMapRowsDecode : Obligations.OpcodeMapRowsDecode := by
  intro x
  exact ⟨decode_cons_of_b2 rfl x [], decode_cons_of_b2 rfl x [], decode_cons_of_b2 rfl x [],
    decode_cons_of_b1 rfl [], decode_cons_of_b1 rfl [],
    decode_cons_of_b2 rfl x [], decode_cons_of_b2 rfl x [], decode_cons_of_b2 rfl x [], decode_cons_of_b2 rfl x [],
    decode_cons_of_b2 rfl x [], decode_cons_of_b1 rfl [],
    decode_cons_of_b2 rfl x [], decode_cons_of_b2 rfl x [], decode_cons_of_b2 rfl x [], decode_cons_of_b2 rfl x [],
    decode_cons_of_b2 rfl x [], decode_cons_of_b2 rfl x []⟩

/-- Settles O9: the decoder and the fetch unit ask the opcode map for the same format. -/
theorem stepRunsTheDecodedInstruction : Obligations.StepRunsTheDecodedInstruction := by
  intro s i rest hdec
  cases hf : dispatchOpcode (s.mem.read s.pc) with
  | b1 j =>
    rw [decode_cons_of_b1 hf] at hdec
    cases hdec
    rw [step_of_dispatchOpcode_b1 hf, length_of_dispatchOpcode_b1 hf, State.setPc]
  | b2 k =>
    rw [decode_cons_of_b2 hf] at hdec
    cases hdec
    rw [step_of_dispatchOpcode_b2 hf, length_of_dispatchOpcode_b2 hf, State.setPc]

end Sys2Proof.Machine

namespace Sys2Proof.Machine

/-! The invariant, over steps and transactions -/

/-- Settles O53: a step keeps memory or writes one cell, and a write keeps the canonical form. -/
theorem everyStepKeepsTheInvariant : Obligations.EveryStepKeepsTheInvariant := by
  intro s t hinv hstep
  rcases step_mem_cases hstep with hkeep | ⟨-, hwrite⟩
  · rwa [State.Inv, hkeep]
  · rw [State.Inv, hwrite]
    exact Memory.wf_write hinv s.operand s.acc

/-- Settles O52: a memory that lists nothing is in canonical form. -/
theorem resetStateMeetsTheInvariant : Obligations.ResetStateMeetsTheInvariant :=
  ⟨Memory.wf_nil, State.powerOn_pc [], State.powerOn_acc [], State.powerOn_flags []⟩

/-- R34: every transaction answers a next state, and keeps the canonical form of memory. -/
theorem transact_eq_next_and_inv (tr : Transaction) (s : State) :
    ∃ t : State, transact tr s = .next t ∧ (s.Inv → t.Inv) := by
  cases tr with
  | step =>
    obtain ⟨t, hstep⟩ := stepAnswersANextStateAlways s
    exact ⟨t, hstep, fun hinv => everyStepKeepsTheInvariant s t hinv hstep⟩
  | writeMemory a v => exact ⟨s.memWrite a v, transact_writeMemory a v s, fun hinv => State.inv_memWrite hinv a v⟩
  | reset => exact ⟨resetRegisters s, transact_reset s, id⟩
  | readMemory _ | observePc | observeAcc | observeFlags => exact ⟨s, rfl, id⟩

@[simp] theorem transactAll_nil (s : State) : transactAll [] s = .next s := rfl

theorem transactAll_cons_of_next {tr : Transaction} {s s' : State} (h : transact tr s = .next s')
    (ts : List Transaction) : transactAll (tr :: ts) s = transactAll ts s' := by
  simp only [transactAll, h]

/-- Settles O54, by induction on the sequence of transactions. -/
theorem transactionsNeverFailAndKeepTheInvariant : Obligations.TransactionsNeverFailAndKeepTheInvariant := by
  intro ts
  induction ts with
  | nil => exact fun s => ⟨s, transactAll_nil s, id⟩
  | cons tr ts ih =>
    intro s
    obtain ⟨s', hs', hinv'⟩ := transact_eq_next_and_inv tr s
    obtain ⟨t, ht, hinv⟩ := ih s'
    exact ⟨t, (transactAll_cons_of_next hs' ts).trans ht, hinv ∘ hinv'⟩

end Sys2Proof.Machine

namespace Sys2Proof.Machine

/-! A step is `exec` of the fetched instruction from the `pc` past its bytes (R82, R83) -/

/-- R62: the `pc` after the fetches of the instruction at the `pc`. -/
def State.pcAfterFetch (s : State) : Byte :=
  if s.opcode ∈ twoByteOpcodes then s.pc + 2#8 else s.pc + 1#8

theorem pcAfterFetch_of_dispatchOpcode_b1 {s : State} {i : Instr} (h : dispatchOpcode (s.mem.read s.pc) = .b1 i) :
    s.pcAfterFetch = s.pc + 1#8 :=
  if_neg (not_mem_twoByteOpcodes_of_dispatchOpcode_b1 h)

theorem pcAfterFetch_of_dispatchOpcode_b2 {s : State} {k : Byte → Instr}
    (h : dispatchOpcode (s.mem.read s.pc) = .b2 k) : s.pcAfterFetch = s.pc + 2#8 :=
  if_pos (mem_twoByteOpcodes_of_dispatchOpcode_b2 h)

theorem pcAfterFetch_cases (s : State) : s.pcAfterFetch = s.pc + 1#8 ∨ s.pcAfterFetch = s.pc + 2#8 := by
  unfold State.pcAfterFetch
  split
  · exact .inr rfl
  · exact .inl rfl

theorem step_eq_exec_fetchInstr (s : State) : step s = exec (fetchInstr s).1 (s.setPc s.pcAfterFetch) := by
  cases hf : dispatchOpcode (s.mem.read s.pc) with
  | b1 i => rw [step_of_dispatchOpcode_b1 hf, fetchInstr_b1 hf, pcAfterFetch_of_dispatchOpcode_b1 hf]
  | b2 k => rw [step_of_dispatchOpcode_b2 hf, fetchInstr_b2 hf, pcAfterFetch_of_dispatchOpcode_b2 hf]

/-- R66: the fetched instruction tells the opcode byte, which is the first of its encoding. -/
theorem opcode_eq_headI_encode_fetchInstr (s : State) : s.opcode = (encode (fetchInstr s).1).headI := by
  rcases encode_fetchInstr s with h | h <;> rw [h, List.headI]

/-! What an instruction leaves unchanged, from `exec` to a step -/

@[simp] theorem jumpIf_acc (taken : Bool) (s : State) (target : Addr) : (jumpIf taken s target).acc = s.acc := by
  rw [jumpIf_eq, State.setPc_acc]

@[simp] theorem jumpIf_flags (taken : Bool) (s : State) (target : Addr) :
    (jumpIf taken s target).flags = s.flags := by
  rw [jumpIf_eq, State.setPc_flags]

/-- Settles O38, by the kinds of instructions: the store, the writers of `acc`, of `flags` and of both, the jumps and
the no-op. -/
theorem frameOfEveryInstruction : Obligations.FrameOfEveryInstruction := by
  intro i s
  cases i with
  | sta a =>
    exact ⟨_, exec_sta a s, rfl, rfl, rfl,
      fun b hb => Memory.read_write_other s.mem s.acc fun hba => hb (congrArg Instr.sta hba.symm)⟩
  | ldi _ | lda _ | ldf | ldp => exact ⟨_, rfl, trivial, rfl, rfl, fun _ _ => rfl⟩
  | stf => exact ⟨_, exec_stf s, rfl, trivial, rfl, fun _ _ => rfl⟩
  | cmp imm =>
    exact ⟨_, exec_cmp imm s, rfl, fun _ hk _ => writeZ_getLsbD_of_pos s.flags _ hk, rfl, fun _ _ => rfl⟩
  | adi _ | add _ | sui _ | sub _ =>
    exact ⟨_, rfl, trivial, fun _ hk _ => writeZ_getLsbD_of_pos s.flags _ hk, rfl, fun _ _ => rfl⟩
  | jmi _ | jmp _ => exact ⟨_, rfl, rfl, rfl, trivial, fun _ _ => rfl⟩
  | jiz _ | jmz _ | jin _ | jmn _ =>
    exact ⟨_, rfl, jumpIf_acc _ s _, jumpIf_flags _ s _, trivial, fun a _ => congrArg (·.read a) (jumpIf_mem _ s _)⟩
  | unknown op => exact ⟨s, exec_unknown op s, rfl, rfl, rfl, fun _ _ => rfl⟩

/-- An instruction has one outcome: what holds of a next state it answers holds of any. -/
theorem holds_of_exists_next {o : Host.Outcome State Fault Refusal} {t : State} {P : State → Prop} (h : o = .next t)
    (hex : ∃ t', o = .next t' ∧ P t') : P t := by
  obtain ⟨t', ht', hP⟩ := hex
  obtain rfl : t' = t := Host.Outcome.next.inj (ht'.symm.trans h)
  exact hP

section
variable {s t : State} (h : step s = .next t)
include h

/-- A step tells its instruction by the opcode byte, and runs it from the `pc` past its bytes. -/
theorem exec_of_step : ∃ i, s.opcode = (encode i).headI ∧ exec i (s.setPc s.pcAfterFetch) = .next t :=
  ⟨(fetchInstr s).1, opcode_eq_headI_encode_fetchInstr s, (step_eq_exec_fetchInstr s).symm.trans h⟩

theorem opcode_mem_of_step_acc_ne (hne : t.acc ≠ s.acc) :
    s.opcode ∈ [0x01#8, 0x02#8, 0x04#8, 0x11#8, 0x12#8, 0x13#8, 0x14#8, 0x20#8] := by
  obtain ⟨i, hop, hexec⟩ := exec_of_step h
  obtain ⟨hacc, -⟩ := holds_of_exists_next hexec (frameOfEveryInstruction i (s.setPc s.pcAfterFetch))
  cases i with
  | sta _ | stf | cmp _ | jmi _ | jmp _ | jiz _ | jmz _ | jin _ | jmn _ | unknown _ => exact absurd hacc hne
  | ldi _ | lda _ | ldf | adi _ | add _ | sui _ | sub _ | ldp => simp [hop, encode]

theorem opcode_eq_stf_of_step_flags_ne {k : Nat} (hk : 1 ≤ k) (hk8 : k < 8)
    (hne : t.flags.getLsbD k ≠ s.flags.getLsbD k) : s.opcode = 0x05#8 := by
  obtain ⟨i, hop, hexec⟩ := exec_of_step h
  obtain ⟨-, hflags, -⟩ := holds_of_exists_next hexec (frameOfEveryInstruction i (s.setPc s.pcAfterFetch))
  cases i with
  | stf => exact hop
  | cmp _ | adi _ | add _ | sui _ | sub _ => exact absurd (hflags k hk hk8) hne
  | ldi _ | lda _ | sta _ | ldf | ldp | jmi _ | jmp _ | jiz _ | jmz _ | jin _ | jmn _ | unknown _ =>
    exact absurd (congrArg (·.getLsbD k) hflags) hne

theorem opcode_mem_of_step_flags_zero_ne (hne : t.flags.getLsbD 0 ≠ s.flags.getLsbD 0) :
    s.opcode ∈ [0x05#8, 0x10#8, 0x11#8, 0x12#8, 0x13#8, 0x14#8] := by
  obtain ⟨i, hop, hexec⟩ := exec_of_step h
  obtain ⟨-, hflags, -⟩ := holds_of_exists_next hexec (frameOfEveryInstruction i (s.setPc s.pcAfterFetch))
  cases i with
  | stf | cmp _ | adi _ | add _ | sui _ | sub _ => simp [hop, encode]
  | ldi _ | lda _ | sta _ | ldf | ldp | jmi _ | jmp _ | jiz _ | jmz _ | jin _ | jmn _ | unknown _ =>
    exact absurd (congrArg (·.getLsbD 0) hflags) hne

/-- R86: only a jump leaves the `pc` anywhere but past the instruction's bytes. -/
theorem step_pc_of_not_jump (hjump : s.opcode ∉ [0x21#8, 0x22#8, 0x23#8, 0x24#8, 0x25#8, 0x26#8]) :
    t.pc = s.pcAfterFetch := by
  obtain ⟨i, hop, hexec⟩ := exec_of_step h
  obtain ⟨-, -, hpc, -⟩ := holds_of_exists_next hexec (frameOfEveryInstruction i (s.setPc s.pcAfterFetch))
  cases i with
  | jmi _ | jmp _ | jiz _ | jmz _ | jin _ | jmn _ => exact absurd (by simp [hop, encode]) hjump
  | ldi _ | lda _ | sta _ | ldf | stf | cmp _ | adi _ | add _ | sui _ | sub _ | ldp | unknown _ => exact hpc

end

/-- Settles O12: the six jumps by their own rules, and every other opcode by the frame of the `pc`. -/
theorem pcAfterAnyStep : Obligations.PcAfterAnyStep := by
  intro s
  by_cases hjump : s.opcode ∈ [0x21#8, 0x22#8, 0x23#8, 0x24#8, 0x25#8, 0x26#8]
  · simp only [List.mem_cons, List.not_mem_nil, or_false] at hjump
    rcases hjump with hop | hop | hop | hop | hop | hop
    · exact ⟨_, (jmiJumpsToTheImmediate s).2 hop, by simp [hop, State.operand]⟩
    · exact ⟨_, (jmpJumpsThroughMemory s).2 hop, by simp [hop, State.operand]⟩
    · exact ⟨_, (jizJumpsIfZIsSet s).2 hop, by simp [hop, State.operand, twoByteOpcodes]⟩
    · exact ⟨_, (jmzJumpsThroughMemoryIfZIsSet s).2 hop, by simp [hop, State.operand, twoByteOpcodes]⟩
    · refine ⟨_, (jinJumpsIfZIsClear s).2 hop, ?_⟩
      cases s.flags.getLsbD 0 <;> simp [hop, State.operand, twoByteOpcodes]
    · refine ⟨_, (jmnJumpsThroughMemoryIfZIsClear s).2 hop, ?_⟩
      cases s.flags.getLsbD 0 <;> simp [hop, State.operand, twoByteOpcodes]
  · obtain ⟨t, hstep⟩ := stepAnswersANextStateAlways s
    refine ⟨t, hstep, (step_pc_of_not_jump hstep hjump).trans ?_⟩
    simp only [List.mem_cons, List.not_mem_nil, or_false, not_or] at hjump
    obtain ⟨h21, h22, h23, h24, h25, h26⟩ := hjump
    rw [if_neg (by simp [h21, h23, h25]), if_neg (by simp [h22, h24, h26]), State.pcAfterFetch]

/-! What changes which register, over every transaction (R24, R26, R30, R32) -/

/-- R34: only `reset` and `step` change a register. -/
theorem transact_registers_cases {tr : Transaction} {s t : State} (h : transact tr s = .next t) :
    (tr = .reset ∧ t = resetRegisters s) ∨ (tr = .step ∧ step s = .next t) ∨
      (t.pc = s.pc ∧ t.acc = s.acc ∧ t.flags = s.flags) := by
  cases tr with
  | reset =>
    cases h
    exact .inl ⟨rfl, rfl⟩
  | step => exact .inr (.inl ⟨rfl, h⟩)
  | readMemory _ | writeMemory _ _ | observePc | observeAcc | observeFlags =>
    cases h
    exact .inr (.inr ⟨rfl, rfl, rfl⟩)

/-- Settles O39: of the transactions only a step and reset can change `acc`. -/
theorem accIsWrittenOnlyByItsInstructionsAndReset : Obligations.AccIsWrittenOnlyByItsInstructionsAndReset := by
  intro tr s t h hne
  rcases transact_registers_cases h with ⟨rfl, -⟩ | ⟨rfl, hstep⟩ | ⟨-, hacc, -⟩
  · exact .inl rfl
  · exact .inr ⟨rfl, opcode_mem_of_step_acc_ne hstep hne⟩
  · exact absurd hacc hne

/-- Settles O40: of the transactions only a step and reset can change `flags`. -/
theorem flagsAreWrittenOnlyByTheirInstructionsAndReset :
    Obligations.FlagsAreWrittenOnlyByTheirInstructionsAndReset := by
  intro tr s t h
  rcases transact_registers_cases h with ⟨rfl, -⟩ | ⟨rfl, hstep⟩ | ⟨-, -, hflags⟩
  · exact ⟨fun _ _ _ _ => .inl rfl, fun _ => .inl rfl⟩
  · exact ⟨fun _ hk hk8 hne => .inr ⟨rfl, opcode_eq_stf_of_step_flags_ne hstep hk hk8 hne⟩,
      fun hne => .inr ⟨rfl, opcode_mem_of_step_flags_zero_ne hstep hne⟩⟩
  · exact ⟨fun k _ _ hne => absurd (congrArg (·.getLsbD k) hflags) hne,
      fun hne => absurd (congrArg (·.getLsbD 0) hflags) hne⟩

/-- Settles O41: a step on no jump leaves the `pc` past one or two bytes. -/
theorem pcIsWrittenOnlyByFetchJumpAndReset : Obligations.PcIsWrittenOnlyByFetchJumpAndReset := by
  intro tr s t h hne
  rcases transact_registers_cases h with ⟨rfl, rfl⟩ | ⟨rfl, hstep⟩ | ⟨hpc, -, -⟩
  · exact .inl ⟨rfl, resetRegisters_pc s⟩
  · refine .inr ⟨rfl, ?_⟩
    by_cases hjump : s.opcode ∈ [0x21#8, 0x22#8, 0x23#8, 0x24#8, 0x25#8, 0x26#8]
    · exact .inr (.inr hjump)
    · rw [step_pc_of_not_jump hstep hjump]
      exact (pcAfterFetch_cases s).imp_right .inl
  · exact absurd hpc hne

/-! Reset and power-on (R39, R190 to R195) -/

theorem resetRegisters_resetRegisters (s : State) : resetRegisters (resetRegisters s) = resetRegisters s := rfl

theorem resetRegisters_memWrite (s : State) (a : Addr) (v : Byte) :
    resetRegisters (s.memWrite a v) = (resetRegisters s).memWrite a v := rfl

theorem resetRegisters_powerOn (m : Memory) : resetRegisters (State.powerOn m) = State.powerOn m := rfl

/-- Settles O50: reset writes the registers only, with constants, and a host write the memory only. -/
theorem resetIsIdempotentAndEntersAtZero : Obligations.ResetIsIdempotentAndEntersAtZero := by
  intro s a v
  refine ⟨?_, ?_, resetRegisters s, transact_reset s, ?_⟩
  · simp only [transactAll, transact_reset, resetRegisters_resetRegisters]
  · simp only [transactAll, transact_reset, transact_writeMemory, resetRegisters_memWrite]
  · rw [fetch_fst, resetRegisters_mem, resetRegisters_pc]

/-- Settles O51: the registers at power-on are those that reset writes. -/
theorem powerOnTakesAnyMemoryAndZeroRegisters : Obligations.PowerOnTakesAnyMemoryAndZeroRegisters := by
  intro m
  refine ⟨State.powerOn_pc m, State.powerOn_acc m, State.powerOn_flags m, fun a => ?_, ?_⟩
  · rw [State.powerOn_mem]
  · rw [transact_reset, resetRegisters_powerOn]

end Sys2Proof.Machine

namespace Sys2Proof.Machine

/-! The memory as a map (R20, R40): a canonical list is settled by what it reads as -/

theorem Memory.mem_of_read_ne_unlisted {m : Memory} {a : Addr} (h : m.read a ≠ Memory.unlisted) :
    (a.toNat, m.read a) ∈ m := by
  induction m with
  | nil => exact absurd (Memory.read_nil a) h
  | cons c m ih =>
    rw [Memory.read] at h ⊢
    by_cases hc : c.1 = a.toNat
    · rw [if_pos hc, ← hc]
      exact List.mem_cons_self
    · rw [if_neg hc] at h ⊢
      exact List.mem_cons_of_mem c (ih h)

theorem Memory.read_of_mem {m : Memory} (hsorted : m.Pairwise (fun c d => c.1 < d.1)) {a : Addr} {v : Byte}
    (h : (a.toNat, v) ∈ m) : m.read a = v := by
  induction m with
  | nil => cases h
  | cons c m ih =>
    obtain ⟨hfirst, hsorted⟩ := List.pairwise_cons.1 hsorted
    rw [Memory.read]
    rcases List.mem_cons.1 h with rfl | h
    · exact if_pos rfl
    · have hc : c.1 ≠ a.toNat := (hfirst _ h).ne
      rw [if_neg hc, ih hsorted h]

/-- An entry of a canonical list stands for a cell that does not read as unlisted, so every list that reads alike has
the entry. -/
theorem Memory.subset_of_read_eq {m m' : Memory} (hwf : m.wf = true) (h : ∀ a, m.read a = m'.read a) : m ⊆ m' := by
  rw [Memory.wf_iff] at hwf
  obtain ⟨hsorted, hcells⟩ := hwf
  rintro ⟨n, v⟩ hmem
  obtain ⟨hn, hv⟩ := hcells _ hmem
  have haddr : (BitVec.ofNat 8 n).toNat = n := (BitVec.toNat_ofNat n 8).trans (Nat.mod_eq_of_lt hn)
  have hread : m'.read (BitVec.ofNat 8 n) = v := by
    rw [← h]
    exact Memory.read_of_mem hsorted (haddr.symm ▸ hmem)
  have hmem' := Memory.mem_of_read_ne_unlisted (hread.symm ▸ hv)
  rwa [hread, haddr] at hmem'

/-- Settles O43: the two lists have the same entries, and a strictly rising list is settled by its entries. -/
theorem canonicalMemoriesThatReadAlikeAreEqual : Obligations.CanonicalMemoriesThatReadAlikeAreEqual := by
  intro m m' hwf hwf' h
  have hsorted := ((Memory.wf_iff m).1 hwf).1
  have hsorted' := ((Memory.wf_iff m').1 hwf').1
  have hmem : ∀ c, c ∈ m ↔ c ∈ m' := fun c =>
    ⟨fun hc => Memory.subset_of_read_eq hwf h hc, fun hc => Memory.subset_of_read_eq hwf' (fun a => (h a).symm) hc⟩
  have hnodup {l : Memory} (hl : l.Pairwise (fun c d => c.1 < d.1)) : l.Nodup :=
    hl.imp fun hlt heq => hlt.ne (congrArg Prod.fst heq)
  have hperm : m.Perm m' := (List.perm_ext_iff_of_nodup (hnodup hsorted) (hnodup hsorted')).2 hmem
  exact hperm.eq_of_pairwise (fun _ _ _ _ hcd hdc => absurd hdc hcd.asymm) hsorted hsorted'

/-- Writes to two different cells of a canonical memory commute: both orders read alike. -/
theorem Memory.write_write_comm {m : Memory} (hwf : m.wf = true) {a b : Addr} (hab : a ≠ b) (v w : Byte) :
    (m.write a v).write b w = (m.write b w).write a v := by
  refine canonicalMemoriesThatReadAlikeAreEqual _ _ (Memory.wf_write (Memory.wf_write hwf a v) b w)
    (Memory.wf_write (Memory.wf_write hwf b w) a v) fun c => ?_
  simp only [Memory.read_write]
  by_cases hca : c = a
  · rw [if_neg (hca ▸ hab), if_pos hca, if_pos hca]
  · rw [if_neg hca, if_neg hca]

/-! Runs of steps -/

@[simp] theorem run_zero (s : State) : Host.Core.run Sys2Proof.core 0 s = .next s := rfl

/-- Settles O14, by induction on the number of steps: the step on the jump answers the state it starts from. -/
theorem selfJumpParksForever : Obligations.SelfJumpParksForever := by
  intro s n hop hself
  have hstep : step s = .next s := by rw [(jmiJumpsToTheImmediate s).2 hop, hself]
  induction n with
  | zero => exact run_zero s
  | succ n ih => exact (run_succ_of_next hstep).trans ih

theorem run_eq_iterate {f : State → State} (hf : ∀ s, step s = .next (f s)) (n : Nat) (s : State) :
    Host.Core.run Sys2Proof.core n s = .next (f^[n] s) := by
  induction n generalizing s with
  | zero => rfl
  | succ n ih => rw [run_succ_of_next (hf s), ih, Function.iterate_succ_apply]

/-- What the spec's state holds: three bytes and a map from addresses to bytes (R20). -/
def State.contents (s : State) : Byte × Byte × Byte × (Addr → Byte) :=
  (s.pc, s.acc, s.flags, s.mem.read)

theorem State.contents_injOn_inv : Set.InjOn State.contents {s | s.Inv} := by
  rintro ⟨pc, acc, flags, m⟩ hinv ⟨pc', acc', flags', m'⟩ hinv' h
  simp only [State.contents, Prod.mk.injEq] at h
  obtain ⟨rfl, rfl, rfl, hread⟩ := h
  obtain rfl : m = m' := canonicalMemoriesThatReadAlikeAreEqual m m' hinv hinv' (congrFun hread)
  rfl

theorem finite_setOf_inv : {s : State | s.Inv}.Finite :=
  Set.Finite.of_injOn (Set.mapsTo_univ _ _) State.contents_injOn_inv Set.finite_univ

/-- Settles O13: a run stays among the finitely many canonical states, so it comes twice to one of them. -/
theorem everyRunOfStepsIsEventuallyPeriodic : Obligations.EveryRunOfStepsIsEventuallyPeriodic := by
  intro s hinv
  choose f hf using stepAnswersANextStateAlways
  have hkeeps : ∀ n, (f^[n] s).Inv :=
    Function.Iterate.rec State.Inv hinv (fun t ht => everyStepKeepsTheInvariant t (f t) ht (hf t))
  obtain ⟨n, k, hlt, heq⟩ := finite_setOf_inv.exists_lt_map_eq_of_forall_mem hkeeps
  refine ⟨n, k - n, f^[n] s, Nat.sub_pos_of_lt hlt, run_eq_iterate hf n s, ?_⟩
  rw [Nat.add_sub_cancel' hlt.le, run_eq_iterate hf, heq]

end Sys2Proof.Machine

namespace Sys2Proof.Machine

/-! Which cells a step depends on (R50, D7) -/

/-- R50, D7: the cell whose byte the meaning of an instruction reads, if it reads one; a jump not taken reads none. -/
def dataRead (flags : Byte) : Instr → Option Addr
  | .lda a | .add a | .sub a | .jmp a => some a
  | .jmz a => if flags.getLsbD 0 then some a else none
  | .jmn a => if !flags.getLsbD 0 then some a else none
  | .ldi _ | .sta _ | .ldf | .stf | .cmp _ | .adi _ | .sui _ | .ldp | .jmi _ | .jiz _ | .jin _ | .unknown _ => none

/-- A conditional jump keeps any memory, and its target counts only if it is taken. -/
theorem jumpIf_with_mem (taken : Bool) (s : State) (m : Memory) {target target' : Addr}
    (h : taken = true → target' = target) :
    jumpIf taken { s with mem := m } target' = { jumpIf taken s target with mem := m } := by
  cases taken with
  | false => rfl
  | true => rw [h rfl]; rfl

/-- An instruction that stores nothing does the same with another memory that holds the same byte in the cell it
reads. -/
theorem exec_with_mem {i : Instr} (hi : ∀ a, i ≠ .sta a) {s t : State} {m : Memory}
    (hread : ∀ a, dataRead s.flags i = some a → m.read a = s.mem.read a) (h : exec i s = .next t) :
    exec i { s with mem := m } = .next { t with mem := m } := by
  cases i with
  | sta a => exact absurd rfl (hi a)
  | lda a | add a | sub a | jmp a =>
    cases h
    have hcell : m.read a = s.mem.read a := hread a rfl
    simp only [exec_lda, exec_add, exec_sub, exec_jmp, hcell]
    rfl
  | jmz a | jmn a =>
    cases h
    exact congrArg _ (jumpIf_with_mem _ s m fun htaken => hread a (if_pos htaken))
  | jiz _ | jin _ =>
    cases h
    exact congrArg _ (jumpIf_with_mem _ s m fun _ => rfl)
  | ldi _ | ldf | stf | cmp _ | adi _ | sui _ | ldp | jmi _ | unknown _ =>
    cases h
    rfl

/-- R61: an instruction fetched with two bytes tells the opcode and the operand. -/
theorem opcode_and_operand_of_encode_fetchInstr {s : State} {op b : Byte} (h : encode (fetchInstr s).1 = [op, b]) :
    s.opcode = op ∧ b = s.operand := by
  rcases encode_fetchInstr s with h1 | h2
  · simp [h1] at h
  · simpa [h2, eq_comm] using h

/-- R66: the byte that the fetched instruction reads is the data access which the opcode byte and the flags tell. -/
theorem accessesData_of_dataRead {s : State} {a : Addr} (h : dataRead s.flags (fetchInstr s).1 = some a) :
    s.accessesData ∧ a = s.operand := by
  generalize hi : (fetchInstr s).1 = i at h
  cases i with
  | lda b | add b | sub b | jmp b =>
    obtain ⟨hop, hb⟩ := opcode_and_operand_of_encode_fetchInstr (congrArg encode hi)
    cases h
    exact ⟨.inl (by simp [hop]), hb⟩
  | jmz b =>
    obtain ⟨hop, hb⟩ := opcode_and_operand_of_encode_fetchInstr (congrArg encode hi)
    obtain ⟨hset, ⟨⟩⟩ := Option.ite_none_right_eq_some.1 h
    exact ⟨.inr (.inl ⟨hop, hset⟩), hb⟩
  | jmn b =>
    obtain ⟨hop, hb⟩ := opcode_and_operand_of_encode_fetchInstr (congrArg encode hi)
    obtain ⟨hclear, ⟨⟩⟩ := Option.ite_none_right_eq_some.1 h
    exact ⟨.inr (.inr ⟨hop, by simpa using hclear⟩), hb⟩
  | ldi _ | sta _ | ldf | stf | cmp _ | adi _ | sui _ | ldp | jmi _ | jiz _ | jin _ | unknown _ => cases h

/-- A step is the same instruction from the same `pc` with another memory that holds the same bytes of the
instruction. -/
theorem step_with_mem {s : State} {m : Memory} (hop : m.read s.pc = s.opcode)
    (hoperand : s.opcode ∈ twoByteOpcodes → m.read (s.pc + 1#8) = s.operand) :
    step { s with mem := m } = exec (fetchInstr s).1 { s.setPc s.pcAfterFetch with mem := m } := by
  cases hf : dispatchOpcode s.opcode with
  | b1 i =>
    have hf' : dispatchOpcode (m.read s.pc) = .b1 i := by rw [hop, hf]
    rw [step_of_dispatchOpcode_b1 (s := { s with mem := m }) hf', fetchInstr_b1 hf,
      pcAfterFetch_of_dispatchOpcode_b1 hf]
    rfl
  | b2 k =>
    have hf' : dispatchOpcode (m.read s.pc) = .b2 k := by rw [hop, hf]
    rw [step_of_dispatchOpcode_b2 (s := { s with mem := m }) hf', fetchInstr_b2 hf,
      pcAfterFetch_of_dispatchOpcode_b2 hf, hoperand (mem_twoByteOpcodes_of_dispatchOpcode_b2 hf)]
    rfl

/-- Settles O45: a `sta` writes two different cells in either order, and every other instruction reads the same byte
with the write as without it. -/
theorem stepCommutesWithWritesToCellsItDoesNotAccess : Obligations.StepCommutesWithWritesToCellsItDoesNotAccess := by
  intro s a v hinv hpc hoperand hdata
  have hwritten : step { s with mem := s.mem.write a v } =
      exec (fetchInstr s).1 { s.setPc s.pcAfterFetch with mem := s.mem.write a v } :=
    step_with_mem (Memory.read_write_other s.mem v hpc.symm)
      fun htwo => Memory.read_write_other s.mem v (hoperand htwo).symm
  obtain ⟨t, hstep⟩ := stepAnswersANextStateAlways s
  refine ⟨t, hstep, ?_⟩
  rw [step_eq_exec_fetchInstr] at hstep
  rw [hwritten]
  by_cases hsta : ∃ b, (fetchInstr s).1 = .sta b
  · obtain ⟨b, hb⟩ := hsta
    obtain ⟨hop, rfl⟩ := opcode_and_operand_of_fetchInstr_eq_sta hb
    have hne : a ≠ s.operand := hdata (.inl (by simp [hop]))
    rw [hb, exec_sta] at hstep ⊢
    cases hstep
    exact congrArg (fun m => Host.Outcome.next { s.setPc s.pcAfterFetch with mem := m })
      (Memory.write_write_comm hinv hne v s.acc)
  · have hkeep : t.mem = s.mem :=
      holds_of_exists_next hstep (exec_keeps_mem (not_exists.1 hsta) (s.setPc s.pcAfterFetch))
    rw [hkeep]
    refine exec_with_mem (not_exists.1 hsta) (fun b hb => ?_) hstep
    obtain ⟨haccess, rfl⟩ := accessesData_of_dataRead hb
    exact Memory.read_write_other s.mem v (hdata haccess).symm

/-! No other state (R20) -/

/-- R20: with another memory that reads alike a step answers the same registers and again a memory that reads alike. -/
theorem step_with_mem_that_reads_alike {s : State} {m : Memory} (h : ∀ a, m.read a = s.mem.read a) :
    ∃ (t : State) (m' : Memory), step s = .next t ∧ step { s with mem := m } = .next { t with mem := m' } ∧
      ∀ a, m'.read a = t.mem.read a := by
  rw [step_with_mem (h s.pc) fun _ => h _, step_eq_exec_fetchInstr]
  by_cases hsta : ∃ b, (fetchInstr s).1 = .sta b
  · obtain ⟨b, hb⟩ := hsta
    rw [hb, exec_sta]
    refine ⟨_, m.write b s.acc, rfl, rfl, fun a => ?_⟩
    rw [State.memWrite_mem, Memory.read_write, Memory.read_write, State.setPc_mem, State.setPc_acc, h a]
  · obtain ⟨t, ht, hmem⟩ := exec_keeps_mem (not_exists.1 hsta) (s.setPc s.pcAfterFetch)
    exact ⟨t, m, ht, exec_with_mem (not_exists.1 hsta) (fun a _ => h a) ht, fun a => by rw [hmem, h, State.setPc_mem]⟩

/-- Settles O44, transaction by transaction: only a step and a host write go on to another memory. -/
theorem noStateIsHiddenFromTheHost : Obligations.NoStateIsHiddenFromTheHost := by
  rintro tr ⟨pc, acc, flags, m⟩ ⟨pc', acc', flags', m'⟩ hpc hacc hflags hread
  cases hpc
  cases hacc
  cases hflags
  cases tr with
  | step =>
    obtain ⟨t, m'', ht, ht', hread'⟩ :=
      step_with_mem_that_reads_alike (s := ⟨pc, acc, flags, m⟩) fun a => (hread a).symm
    exact ⟨rfl, t, _, ht, ht', rfl, rfl, rfl, fun a => (hread' a).symm⟩
  | readMemory a => exact ⟨congrArg some (hread a), _, _, rfl, rfl, rfl, rfl, rfl, hread⟩
  | writeMemory a v =>
    refine ⟨rfl, _, _, rfl, rfl, rfl, rfl, rfl, fun b => ?_⟩
    rw [hostWrite_eq, hostWrite_eq, State.memWrite_mem, State.memWrite_mem, Memory.read_write, Memory.read_write,
      hread b]
  | reset | observePc | observeAcc | observeFlags => exact ⟨rfl, _, _, rfl, rfl, rfl, rfl, rfl, hread⟩

/-! Reads after writes (R49, R53, R54) -/

/-- Settles O46: the fetch reads at the `pc`, where the `sta` or the host has just written. -/
theorem aStoreIsSeenByTheNextFetch : Obligations.AStoreIsSeenByTheNextFetch := by
  refine ⟨fun s hop hoperand => ?_, fun s v => ?_⟩
  · obtain ⟨t, hstep, hpc, -, -, hstored, -⟩ := (staStoresTheAccumulator s).2 hop
    refine ⟨t, hstep, ?_⟩
    rw [fetch_fst, hpc, ← hoperand]
    exact hstored
  · refine ⟨s.memWrite s.pc v, transact_writeMemory s.pc v s, ?_⟩
    rw [fetch_fst, State.memWrite_mem, State.memWrite_pc, Memory.read_write_same]

@[simp] theorem latestWrite_nil (a : Addr) : latestWrite [] a = none := rfl

theorem latestWrite_append (ws us : List (Addr × Byte)) (a : Addr) :
    latestWrite (ws ++ us) a = (latestWrite us a).or (latestWrite ws a) := by
  simp [latestWrite, List.find?_append, Option.map_or]

/-- R45: one write is the latest to its own cell, and none to another. -/
theorem read_write_eq_latestWrite (m : Memory) (a b : Addr) (v : Byte) :
    (m.write a v).read b = (latestWrite [(a, v)] b).getD (m.read b) := by
  rw [Memory.read_write]
  by_cases hba : b = a
  · simp [latestWrite, hba]
  · simp [latestWrite, hba, Ne.symm hba]

/-- R42, R49: after one transaction each cell reads as the write that the transaction makes to it, or as before. -/
theorem read_of_transact {tr : Transaction} {s t : State} (h : transact tr s = .next t) (a : Addr) :
    t.mem.read a = (latestWrite (storeOf tr s).toList a).getD (s.mem.read a) := by
  cases tr with
  | step =>
    by_cases hop : s.opcode = 0x03#8
    · have hformat : dispatchOpcode s.opcode = .b2 .sta := congrArg dispatchOpcode hop
      rw [transact_step, step_of_dispatchOpcode_b2 hformat, exec_sta] at h
      cases h
      rw [storeOf, if_pos hop]
      exact read_write_eq_latestWrite s.mem s.operand a s.acc
    · rw [storeOf, if_neg hop]
      rcases step_mem_cases h with hkeep | ⟨hsta, -⟩
      · rw [hkeep]
        rfl
      · exact absurd hsta hop
  | writeMemory b v =>
    cases h
    exact read_write_eq_latestWrite s.mem b a v
  | reset | readMemory _ | observePc | observeAcc | observeFlags =>
    cases h
    rfl

theorem storesOf_cons_of_next {tr : Transaction} {s s' : State} (h : transact tr s = .next s')
    (ts : List Transaction) : storesOf (tr :: ts) s = (storeOf tr s).toList ++ storesOf ts s' := by
  simp only [storesOf, h]

/-- Settles O47, by induction on the sequence: a cell reads as the latest write after the first transaction, or else as
the first transaction leaves it. -/
theorem everyReadReturnsTheLatestWrite : Obligations.EveryReadReturnsTheLatestWrite := by
  intro ts
  induction ts with
  | nil => exact fun s => ⟨s, transactAll_nil s, fun _ => rfl⟩
  | cons tr ts ih =>
    intro s
    obtain ⟨s', hs', -⟩ := transact_eq_next_and_inv tr s
    obtain ⟨t, ht, hread⟩ := ih s'
    refine ⟨t, (transactAll_cons_of_next hs' ts).trans ht, fun a => ?_⟩
    rw [hread a, storesOf_cons_of_next hs', latestWrite_append, Option.getD_or, read_of_transact hs' a]

end Sys2Proof.Machine
